-- ==== Sys2Proof/Config.lean ====
section
/-! DEFINITION. The fixed parameters of this hardware (spec 00_scope.md R9). None is left to an implementation, and
the spec leaves no value free, so no constant here is opaque. -/

namespace Sys2Proof.Config

/-- `NREGS`: the number of general registers (R9, R30). -/
abbrev nregs : Nat := 16

/-- `CODE_WORDS`: the size of code memory in words (R9, R60). -/
def codeWords : Nat := 1024

/-- `DATA_WORDS`: the size of data memory in words (R9, R61). -/
def dataWords : Nat := 1024

/-- The bytes of one memory: two a word, big-endian (R64, R73). -/
def memoryBytes : Nat := 2048

/-- One byte of `FILL`: what a byte no image and no store has reached reads as (R9, R77, R78). -/
def fillByte : BitVec 8 := 0xFF

/-- `FILL`: what a word no image and no store has reached reads as, and what a fetch outside code memory returns
(R9, R70). -/
def fillWord : BitVec 16 := 0xFFFF

/-- `LOOP_THRESHOLD` (R9, R236). -/
def loopThreshold : Nat := 1024000

/-- `NPHASES` (R9, R230). -/
def nphases : Nat := 6

end Sys2Proof.Config
end

