-- ==== Sys2Proof/Word.lean ====
section
/-! DEFINITION. The word types (spec 00_scope.md R9, R17). -/

namespace Sys2Proof

/-- A 16-bit value: a register, a data word, an instruction word, the pc (R9, R17). -/
abbrev Word := BitVec 16

/-- Half of a word; byte addresses exist at the host interface only (R64). -/
abbrev Byte := BitVec 8

/-- A register index, 0..15; the encoding provides four bits, so every index is legal (R34). -/
abbrev RegIdx := Fin Config.nregs

end Sys2Proof
end

