-- ==== Sys2Proof/Syntax.lean ====
section
/-! DEFINITION. The instruction set, one constructor per row of spec/opcode_table.json (spec 30_encoding.md R110),
the decoded-instruction record of the control unit (10_state.md R49) and the four formats (R108). -/

namespace Sys2Proof

/-- The 23 instructions (R110). `rl` is the left register (w[9:6]), `rs` the right register (w[5:2]), `imm` and `disp`
the raw 6-bit right field (w[5:0]): it is sign-extended in FETCH_OPERANDS and not before (R106). Ignored bits are no part
of an instruction (R105, R108). -/
inductive Instr where
  | addi (rl : RegIdx) (imm : BitVec 6)
  | add (rl rs : RegIdx)
  | subi (rl : RegIdx) (imm : BitVec 6)
  | sub (rl rs : RegIdx)
  | andi (rl : RegIdx) (imm : BitVec 6)
  | and (rl rs : RegIdx)
  | ori (rl : RegIdx) (imm : BitVec 6)
  | or (rl rs : RegIdx)
  | xori (rl : RegIdx) (imm : BitVec 6)
  | xor (rl rs : RegIdx)
  | movi (rl : RegIdx) (imm : BitVec 6)
  | movld (rl rs : RegIdx)
  | movsti (rl : RegIdx) (imm : BitVec 6)
  | movst (rl rs : RegIdx)
  | shr (rl : RegIdx)
  | shl (rl : RegIdx)
  | jr (rl : RegIdx)
  | beq (rl : RegIdx) (disp : BitVec 6)
  | bne (rl : RegIdx) (disp : BitVec 6)
  | blt (rl : RegIdx) (disp : BitVec 6)
  | bgt (rl : RegIdx) (disp : BitVec 6)
  | ble (rl : RegIdx) (disp : BitVec 6)
  | bge (rl : RegIdx) (disp : BitVec 6)
  deriving DecidableEq, Repr

/-- The right operand of a decoded record (R49): an immediate, a register, a data word at the address a register holds,
or, for SHIFT and JR, none (decision D10). -/
inductive RightOperand where
  | imm (rf : BitVec 6)
  | reg (rs : RegIdx)
  | memAtReg (rs : RegIdx)
  | absent
  deriving DecidableEq, Repr

/-- The decoded-instruction record `dec` (R49): indices, not references (R35). -/
structure Decoded where
  cat : BitVec 3
  typ : BitVec 3
  rl : RegIdx
  right : RightOperand
  deriving DecidableEq, Repr

/-- The four formats (R108): register and immediate, register and register, register only, branch. -/
inductive Format where
  | I
  | R
  | U
  | B
  deriving DecidableEq, Repr

end Sys2Proof
end

