-- ==== Sys2Proof/WellFormed.lean ====
section
/-! DEFINITION. Which decoded records the decoder of spec 30_encoding.md R111 can give. Register indices and field widths
are bounded by their types (R34); what is left to check is that the (cat, type) pair is a row of R110 and that the right
operand has the form R108 gives that row. -/

namespace Sys2Proof

/-- The legal (cat, type) pairs (R110), by their numbers: two types for each of ADD, SUB, AND, OR, XOR and SHIFT,
types 0, 1, 4, 5 of MOVE, types 0 to 6 of BRANCH. -/
def legalTypes (cat : BitVec 3) : List (BitVec 3) :=
  if cat = 5 then [0, 1, 4, 5]
  else if cat = 7 then [0, 1, 2, 3, 4, 5, 6]
  else [0, 1]

/-- The check on the (cat, type) pair (R110, R113). -/
def Decoded.legalPair (d : Decoded) : Bool := (legalTypes d.cat).contains d.typ

/-- The check on the right operand's form (R108, R111): SHIFT and JR have none, MOVLD a memory operand, type 0 and
MOVSTI and the conditional branches an immediate, the others a register. -/
def Decoded.legalRight (d : Decoded) : Bool :=
  match d.right with
  | .absent => d.cat = 6 || (d.cat = 7 && d.typ = 0)
  | .memAtReg _ => d.cat = 5 && d.typ = 1
  | .imm _ => d.cat != 6 && ((d.cat != 7 && d.typ = 0) || (d.cat = 5 && d.typ = 4) || (d.cat = 7 && d.typ != 0))
  | .reg _ => d.cat != 6 && d.cat != 7 && ((d.cat != 5 && d.typ = 1) || (d.cat = 5 && d.typ = 5))

/-- A record the decoder can give. -/
def Decoded.wellFormed (d : Decoded) : Bool := d.legalPair && d.legalRight

end Sys2Proof
end

