-- ==== Sys2Proof/Decode.lean ====
section
/-! DEFINITION. The decoder, total on every word and rejecting by name (spec 30_encoding.md R100 to R115), then the
encoder from the same table (R108, R110, R116), and the opcode table itself as rows of match and mask. -/

namespace Sys2Proof

/-- Why bytes do not decode. -/
inductive DecodeError where
  /-- ILLEGAL_OPCODE: the word's (cat, type) is no row of R110 (R111, R113). Safe: the control unit halts on it (R234). -/
  | illegalOpcode (w : Word)
  /-- Fewer than two bytes were given; no fetch does this, since a fetch reads a whole word (R75). Safe. -/
  | shortInput
  deriving DecidableEq, Repr

/-! ### Fields (R102) -/

def fieldCat (w : Word) : BitVec 3 := w.extractLsb' 13 3
def fieldTyp (w : Word) : BitVec 3 := w.extractLsb' 10 3
def fieldRl (w : Word) : RegIdx := (w.extractLsb' 6 4).toFin
def fieldRf (w : Word) : BitVec 6 := w.extractLsb' 0 6
/-- The right register index w[5:2]; w[1:0] select nothing (R105). -/
def fieldRs (w : Word) : RegIdx := (w.extractLsb' 2 4).toFin

/-! ### The decoder (R111) -/

/-- The right operand of each legal (cat, type), none for an illegal pair (R111, R113). -/
def rightForm (cat typ : BitVec 3) (rf : BitVec 6) (rs : RegIdx) : Option RightOperand :=
  match cat.toNat, typ.toNat with
  | 0, 0 | 1, 0 | 2, 0 | 3, 0 | 4, 0 => some (.imm rf)
  | 0, 1 | 1, 1 | 2, 1 | 3, 1 | 4, 1 => some (.reg rs)
  | 5, 0 => some (.imm rf)
  | 5, 1 => some (.memAtReg rs)
  | 5, 4 => some (.imm rf)
  | 5, 5 => some (.reg rs)
  | 6, 0 | 6, 1 => some .absent
  | 7, 0 => some .absent
  | 7, 1 | 7, 2 | 7, 3 | 7, 4 | 7, 5 | 7, 6 => some (.imm rf)
  | _, _ => none

/-- `Decode(w)` (R111): the decoded record, or ILLEGAL_OPCODE. -/
def decodeRecord (w : Word) : Except DecodeError Decoded :=
  match rightForm (fieldCat w) (fieldTyp w) (fieldRf w) (fieldRs w) with
  | some right => .ok { cat := fieldCat w, typ := fieldTyp w, rl := fieldRl w, right := right }
  | none => .error (.illegalOpcode w)

/-- The instruction a record names, chosen by (cat, type) (45_control_unit.md R242); none for a record the decoder
never gives. -/
def Decoded.toInstr (d : Decoded) : Option Instr :=
  match d.cat.toNat, d.typ.toNat, d.right with
  | 0, 0, .imm rf => some (.addi d.rl rf)
  | 0, 1, .reg rs => some (.add d.rl rs)
  | 1, 0, .imm rf => some (.subi d.rl rf)
  | 1, 1, .reg rs => some (.sub d.rl rs)
  | 2, 0, .imm rf => some (.andi d.rl rf)
  | 2, 1, .reg rs => some (.and d.rl rs)
  | 3, 0, .imm rf => some (.ori d.rl rf)
  | 3, 1, .reg rs => some (.or d.rl rs)
  | 4, 0, .imm rf => some (.xori d.rl rf)
  | 4, 1, .reg rs => some (.xor d.rl rs)
  | 5, 0, .imm rf => some (.movi d.rl rf)
  | 5, 1, .memAtReg rs => some (.movld d.rl rs)
  | 5, 4, .imm rf => some (.movsti d.rl rf)
  | 5, 5, .reg rs => some (.movst d.rl rs)
  | 6, 0, .absent => some (.shr d.rl)
  | 6, 1, .absent => some (.shl d.rl)
  | 7, 0, .absent => some (.jr d.rl)
  | 7, 1, .imm rf => some (.beq d.rl rf)
  | 7, 2, .imm rf => some (.bne d.rl rf)
  | 7, 3, .imm rf => some (.blt d.rl rf)
  | 7, 4, .imm rf => some (.bgt d.rl rf)
  | 7, 5, .imm rf => some (.ble d.rl rf)
  | 7, 6, .imm rf => some (.bge d.rl rf)
  | _, _, _ => none

/-- The instruction a word stands for, or the reason it stands for none. -/
def decode (w : Word) : Except DecodeError Instr :=
  match decodeRecord w with
  | .error e => .error e
  | .ok d =>
    match d.toInstr with
    | some i => .ok i
    | none => .error (.illegalOpcode w)

/-- Two bytes as one word, the byte at the lower address in the high half (R73, R101). -/
def wordOfBytes (hi lo : Byte) : Word := hi ++ lo

/-- The high byte `L` of a word (R101). -/
def highByte (w : Word) : Byte := w.extractLsb' 8 8

/-- The low byte `R` of a word (R101). -/
def lowByte (w : Word) : Byte := w.extractLsb' 0 8

/-- Decode the first instruction of a byte sequence and give the rest: one word always (R100). -/
def decodeBytes : List Byte → Except DecodeError (Instr × List Byte)
  | hi :: lo :: rest =>
    match decode (wordOfBytes hi lo) with
    | .ok i => .ok (i, rest)
    | .error e => .error e
  | _ => .error .shortInput

/-! ### The encoder (R108, R110) -/

/-- A word from its four fields, most significant first (R103). -/
def packWord (cat typ : BitVec 3) (rl : RegIdx) (rf : BitVec 6) : Word :=
  cat ++ typ ++ (BitVec.ofFin rl : BitVec 4) ++ rf

/-- The right field of an operand form; an assembler writes ignored bits as 0 (R116). -/
def RightOperand.field : RightOperand → BitVec 6
  | .imm rf => rf
  | .reg rs => (BitVec.ofFin rs : BitVec 4) ++ (0 : BitVec 2)
  | .memAtReg rs => (BitVec.ofFin rs : BitVec 4) ++ (0 : BitVec 2)
  | .absent => 0

/-- The record of each instruction (R108, R110). -/
def recordOf : Instr → Decoded
  | .addi rl imm => ⟨0, 0, rl, .imm imm⟩
  | .add rl rs => ⟨0, 1, rl, .reg rs⟩
  | .subi rl imm => ⟨1, 0, rl, .imm imm⟩
  | .sub rl rs => ⟨1, 1, rl, .reg rs⟩
  | .andi rl imm => ⟨2, 0, rl, .imm imm⟩
  | .and rl rs => ⟨2, 1, rl, .reg rs⟩
  | .ori rl imm => ⟨3, 0, rl, .imm imm⟩
  | .or rl rs => ⟨3, 1, rl, .reg rs⟩
  | .xori rl imm => ⟨4, 0, rl, .imm imm⟩
  | .xor rl rs => ⟨4, 1, rl, .reg rs⟩
  | .movi rl imm => ⟨5, 0, rl, .imm imm⟩
  | .movld rl rs => ⟨5, 1, rl, .memAtReg rs⟩
  | .movsti rl imm => ⟨5, 4, rl, .imm imm⟩
  | .movst rl rs => ⟨5, 5, rl, .reg rs⟩
  | .shr rl => ⟨6, 0, rl, .absent⟩
  | .shl rl => ⟨6, 1, rl, .absent⟩
  | .jr rl => ⟨7, 0, rl, .absent⟩
  | .beq rl disp => ⟨7, 1, rl, .imm disp⟩
  | .bne rl disp => ⟨7, 2, rl, .imm disp⟩
  | .blt rl disp => ⟨7, 3, rl, .imm disp⟩
  | .bgt rl disp => ⟨7, 4, rl, .imm disp⟩
  | .ble rl disp => ⟨7, 5, rl, .imm disp⟩
  | .bge rl disp => ⟨7, 6, rl, .imm disp⟩

/-- The word of a record. -/
def Decoded.pack (d : Decoded) : Word := packWord d.cat d.typ d.rl d.right.field

/-- The word of an instruction, its ignored bits 0 (R110, R116). -/
def encode (i : Instr) : Word := (recordOf i).pack

/-- An instruction is well formed when its record is one the decoder can give. Every `Instr` is, since its fields are
bounded by their types (R34). -/
def Instr.wellFormed (i : Instr) : Bool := (recordOf i).wellFormed

/-- Pseudo-instruction HALT: the fill word, an illegal word (R114, R117, R273). -/
def pseudoHalt : Word := 0xFFFF

/-- Pseudo-instruction NOP: `ADDI R0, #0` (R117). -/
def pseudoNop : Instr := .addi 0 0

/-! ### The opcode table (R110, spec/opcode_table.json) -/

/-- The mnemonic of each instruction (R118). -/
def Instr.mnemonic : Instr → String
  | .addi _ _ => "ADDI"
  | .add _ _ => "ADD"
  | .subi _ _ => "SUBI"
  | .sub _ _ => "SUB"
  | .andi _ _ => "ANDI"
  | .and _ _ => "AND"
  | .ori _ _ => "ORI"
  | .or _ _ => "OR"
  | .xori _ _ => "XORI"
  | .xor _ _ => "XOR"
  | .movi _ _ => "MOVI"
  | .movld _ _ => "MOVLD"
  | .movsti _ _ => "MOVSTI"
  | .movst _ _ => "MOVST"
  | .shr _ => "SHR"
  | .shl _ => "SHL"
  | .jr _ => "JR"
  | .beq _ _ => "BEQ"
  | .bne _ _ => "BNE"
  | .blt _ _ => "BLT"
  | .bgt _ _ => "BGT"
  | .ble _ _ => "BLE"
  | .bge _ _ => "BGE"

/-- One row of the opcode table. -/
structure OpcodeRow where
  mnemonic : String
  pattern : Word
  format : Format
  deriving DecidableEq, Repr

/-- Every row's mask: w[15:10] (R110). -/
def opcodeMask : Word := 0xFC00

/-- The rows of R110, in its order. -/
def opcodeRows : List OpcodeRow :=
  [⟨"ADDI", 0x0000, .I⟩, ⟨"ADD", 0x0400, .R⟩, ⟨"SUBI", 0x2000, .I⟩, ⟨"SUB", 0x2400, .R⟩,
   ⟨"ANDI", 0x4000, .I⟩, ⟨"AND", 0x4400, .R⟩, ⟨"ORI", 0x6000, .I⟩, ⟨"OR", 0x6400, .R⟩,
   ⟨"XORI", 0x8000, .I⟩, ⟨"XOR", 0x8400, .R⟩] ++
  [⟨"MOVI", 0xA000, .I⟩, ⟨"MOVLD", 0xA400, .R⟩, ⟨"MOVSTI", 0xB000, .I⟩, ⟨"MOVST", 0xB400, .R⟩,
   ⟨"SHR", 0xC000, .U⟩, ⟨"SHL", 0xC400, .U⟩] ++
  [⟨"JR", 0xE000, .U⟩, ⟨"BEQ", 0xE400, .B⟩, ⟨"BNE", 0xE800, .B⟩, ⟨"BLT", 0xEC00, .B⟩,
   ⟨"BGT", 0xF000, .B⟩, ⟨"BLE", 0xF400, .B⟩, ⟨"BGE", 0xF800, .B⟩]

/-- The bits a format uses; the others are ignored (R105, R108). -/
def Format.usedBits : Format → Word
  | .I => 0xFFFF
  | .R => 0xFFFC
  | .U => 0xFFC0
  | .B => 0xFFFF

/-- The format of a record (R108): no right operand, a register, a displacement, an immediate. -/
def Decoded.format (d : Decoded) : Format :=
  match d.right with
  | .absent => .U
  | .reg _ => .R
  | .memAtReg _ => .R
  | .imm _ => if d.cat = 7 then .B else .I

/-- The format of an instruction (R108, R110). -/
def Instr.format (i : Instr) : Format := (recordOf i).format

/-- A word matches a row under the table's mask. -/
def OpcodeRow.accepts (r : OpcodeRow) (w : Word) : Bool := w &&& opcodeMask == r.pattern

/-- The instruction the decoder reads from a table word `w` of `nbits` bits: the word is laid out in memory order, high
byte first (R73), and given to `decodeBytes`. -/
def decodeTableWord (nbits w : Nat) : Option Instr :=
  match decodeBytes [highByte (BitVec.ofNat 16 (w % 2 ^ nbits)), lowByte (BitVec.ofNat 16 (w % 2 ^ nbits))] with
  | .ok (i, _) => some i
  | .error _ => none

end Sys2Proof
end

