-- ==== Sys2Proof/Machine/State.lean ====
section
/-! DEFINITION. The state of the core (spec 10_state.md R30 to R56), plain data, and its reset values (R55, R290). -/

namespace Sys2Proof.Machine

/-- The phase register's seven values (R47). -/
inductive Phase where
  | fetchInstr
  | decodeInstr
  | calculateEa
  | fetchOperands
  | executeInstr
  | writeBack
  | halted
  deriving DecidableEq, Repr

/-- The halt reasons (R51, 60_exceptions.md R260, R262); `none` is NONE. -/
inductive HaltReason where
  | none
  | illegalOpcode
  | infiniteLoop
  | illegalAddress
  deriving DecidableEq, Repr

/-- The halt record (R51). `addr` means something only for `illegalAddress`. -/
structure HaltRecord where
  reason : HaltReason
  pc : Word
  instr : Word
  addr : Word
  deriving DecidableEq, Repr

/-- One memory of the core: byte cells in canonical form (`Memory.wf`), word `a` being bytes `2a` (high) and `2a + 1`
(low) (20_memory.md R64, R73); an unlisted byte reads as the fill byte (R77, R78). -/
abbrev Memory := List Host.Cell

/-- The loop-detection counters: code address and count, in the same canonical form; an unlisted counter is 0
(R44, R55). -/
abbrev Counters := List (Nat × Nat)

/-- Why a step stops without a next state. The three halts of the core are no faults here: the spec describes their
entry, so they are next states whose phase is `halted` (60_exceptions.md R264). Both faults are for states that no run
reaches (log 9). -/
inductive Fault where
  /-- Raised by the phase machine (`stepPhase`) in FETCH_OPERANDS or EXECUTE_INSTR when `dec` holds no record the decoder
  gives: the spec gives those phases no effect then, since DECODE_INSTR always wrote `dec` before (R49, D14). Safe: the
  model stops. -/
  | noDecodedInstruction
  /-- Raised by the phase machine (`stepPhase`) in CALCULATE_EA when `pc` is outside 0..1023: there is no counter for that
  address, and no run gets there (R45). Safe: the model stops. -/
  | noLoopCounter
  deriving DecidableEq, Repr

/-- Why an instruction has no meaning. -/
inductive Refusal where
  /-- Raised by `exec` for an instruction that has no meaning yet, by its mnemonic. Safe: nothing can be proved of it. No
  arm of `exec` raises it. -/
  | notModelled (mnemonic : String)
  deriving DecidableEq, Repr

/-- Everything the spec gives the core (R30 to R52). -/
structure State where
  /-- `x[0]`..`x[15]` (R30). -/
  regs : Vector Word Config.nregs
  /-- The program counter, in code words (R36). -/
  pc : Word
  /-- Code memory, read by fetch only and never written in a run (20_memory.md R60). -/
  code : Memory
  /-- Data memory (20_memory.md R61). -/
  data : Memory
  /-- `loop[a]` (R44). -/
  loops : Counters
  /-- The phase the next phase step performs (R47). -/
  phase : Phase
  /-- The instruction register (R48). -/
  ir : Word
  /-- The decoded-instruction record (R49), empty at reset (R55). -/
  dec : Option Decoded
  /-- The operand latch (R50). -/
  opnd : Word
  /-- The halt record (R51). -/
  halt : HaltRecord
  deriving DecidableEq, Repr

/-- The core right after reset with empty images (R55, R290): every register, `pc` and counter 0, phase FETCH_INSTR, no
halt reason; nothing listed in either memory, so that every word is 0xFFFF. -/
def State.reset : State where
  regs := Vector.replicate Config.nregs 0
  pc := 0
  code := []
  data := []
  loops := []
  phase := .fetchInstr
  ir := 0
  dec := none
  opnd := 0
  halt := { reason := .none, pc := 0, instr := 0, addr := 0 }

end Sys2Proof.Machine
end

