-- ==== Sys2Proof/Machine/Ops.lean ====
section
/-! DEFINITION. The named operations over memories, counters, registers and latches, the address decoder
(spec 20_memory.md), and taking a halt (60_exceptions.md R264). -/

namespace Sys2Proof.Machine

/-! ### Sparse tables in canonical form -/

/-- The value at a key: the first entry of that key, else the default `d`. -/
def sparseRead {α : Type} (d : α) (k : Nat) : List (Nat × α) → α
  | [] => d
  | (j, v) :: l => if j = k then v else sparseRead d k l

/-- Drop every entry of a key. -/
def sparseErase {α : Type} (k : Nat) : List (Nat × α) → List (Nat × α)
  | [] => []
  | (j, v) :: l => if j = k then sparseErase k l else (j, v) :: sparseErase k l

/-- Put an entry before the first larger key. -/
def sparseInsert {α : Type} (k : Nat) (v : α) : List (Nat × α) → List (Nat × α)
  | [] => [(k, v)]
  | (j, u) :: l => if k < j then (k, v) :: (j, u) :: l else (j, u) :: sparseInsert k v l

/-- Write a key; writing the default removes the entry, so that equal tables are equal lists. -/
def sparseWrite {α : Type} [DecidableEq α] (d : α) (k : Nat) (v : α) (l : List (Nat × α)) : List (Nat × α) :=
  if v = d then sparseErase k l else sparseInsert k v (sparseErase k l)

/-- Keys strictly rising from `lo`, all below `hi`, and no entry equal to the default. -/
def sparseWf {α : Type} [DecidableEq α] (d : α) (hi : Nat) : Nat → List (Nat × α) → Bool
  | _, [] => true
  | lo, (k, v) :: l => decide (lo ≤ k) && decide (k < hi) && decide (v ≠ d) && sparseWf d hi (k + 1) l

/-! ### Memories (R60, R61, R64, R73) -/

/-- The canonical form of a memory. -/
def Memory.wf (m : Memory) : Bool := sparseWf Config.fillByte Config.memoryBytes 0 m

/-- One byte; a byte nothing has reached is 0xFF (R77, R78). -/
def readByte (m : Memory) (a : Nat) : Byte := sparseRead Config.fillByte a m

def writeByte (m : Memory) (a : Nat) (b : Byte) : Memory := sparseWrite Config.fillByte a b m

/-- The word at a word index, big-endian (R73). -/
def readWord (m : Memory) (i : Nat) : Word := wordOfBytes (readByte m (2 * i)) (readByte m (2 * i + 1))

/-- Store both bytes of a word, big-endian (R72, R73). -/
def writeWord (m : Memory) (i : Nat) (v : Word) : Memory :=
  writeByte (writeByte m (2 * i) (highByte v)) (2 * i + 1) (lowByte v)

/-! ### The 10-bit address decoder (R66) -/

/-- `AddrOK(a)`: bits 15..10 are 0. -/
def addrOK (a : Word) : Bool := a.extractLsb' 10 6 == 0

/-- The word index `a[9:0]`. -/
def wordIndex (a : Word) : Nat := (a.extractLsb' 0 10).toNat

/-- `CodeRead(a)` (R70): the fill word outside 0..1023; it never halts (D2). -/
def codeRead (m : Memory) (a : Word) : Word := if addrOK a then readWord m (wordIndex a) else Config.fillWord

/-! ### The loop-detection counters (10_state.md R44, 45_control_unit.md R236) -/

/-- The canonical form of the counters: addresses 0..1023, no listed zero (R45, R55). -/
def Counters.wf (c : Counters) : Bool := sparseWf 0 Config.codeWords 0 c

def loopCount (c : Counters) (a : Nat) : Nat := sparseRead 0 a c

def countVisit (c : Counters) (a : Nat) : Counters := sparseWrite 0 a (loopCount c a + 1) c

/-! ### Registers and latches -/

/-- `x[i]` (R30). No register is hardwired (R31). -/
def State.readReg (s : State) (i : RegIdx) : Word := s.regs[i.val]

/-- `x[i] <- v` (R30). -/
def State.setReg (s : State) (i : RegIdx) (v : Word) : State := { s with regs := s.regs.set i.val v }

def State.setPc (s : State) (v : Word) : State := { s with pc := v }
def State.setCode (s : State) (m : Memory) : State := { s with code := m }
def State.setData (s : State) (m : Memory) : State := { s with data := m }
def State.setLoops (s : State) (c : Counters) : State := { s with loops := c }
def State.setPhase (s : State) (p : Phase) : State := { s with phase := p }
def State.setIr (s : State) (w : Word) : State := { s with ir := w }
def State.setDec (s : State) (d : Option Decoded) : State := { s with dec := d }
def State.setOpnd (s : State) (v : Word) : State := { s with opnd := v }
def State.setHalt (s : State) (h : HaltRecord) : State := { s with halt := h }

/-! ### Taking a halt (60_exceptions.md R264) -/

/-- `raise Halt(reason, addr = a)`: the halt record and the phase, nothing else. The address is kept for ILLEGAL_ADDRESS
and is 0 otherwise (D13). There is no return from a halt (R269): a halted core keeps its state (R247). -/
def raiseHalt (reason : HaltReason) (a : Word) (s : State) : State :=
  (s.setHalt { reason := reason, pc := s.pc, instr := s.ir, addr := if reason = .illegalAddress then a else 0 }).setPhase
    .halted

/-! ### Data accesses (R71, R72): the word, or the state halted with ILLEGAL_ADDRESS -/

/-- `MemRead(a, 1)` (R71). -/
def memRead (a : Word) (s : State) : Except State Word :=
  if addrOK a then .ok (readWord s.data (wordIndex a)) else .error (raiseHalt .illegalAddress a s)

/-- `MemWrite(a, 1, v)` (R72): a write that fails the check writes nothing (D3). -/
def memWrite (a v : Word) (s : State) : Except State State :=
  if addrOK a then .ok (s.setData (writeWord s.data (wordIndex a) v)) else .error (raiseHalt .illegalAddress a s)

end Sys2Proof.Machine
end

