-- ==== Sys2Proof/Machine/HostIo.lean ====
section
/-! DEFINITION. The core's interface to the world outside (spec 10_state.md R56): the launch with code and data images
(20_memory.md R77, R78, 70_reset_and_hazards.md R290), the outputs after a halt (60_exceptions.md R262, R279, R280), the
data memory read port and the dump (20_memory.md R80, R81), and the assembler text of an instruction (30_encoding.md R116).
No step of the core calls anything of this file. -/

namespace Sys2Proof.Machine

/-! ### Launch -/

/-- Bytes at rising addresses from `k`. -/
def loadBytes : Nat → List Byte → Memory → Memory
  | _, [], m => m
  | k, b :: bs, m => loadBytes (k + 1) bs (writeByte m k b)

/-- A code image (R77): copied verbatim, missing bytes 0xFF; an odd last byte is a high byte. None for an image over 2048
bytes, on which the spec says nothing (D11, log 13). -/
def codeOfImage (bytes : List Byte) : Option Memory :=
  if bytes.length ≤ Config.memoryBytes then some (loadBytes 0 bytes []) else none

/-- One hexadecimal digit, of either case (log 13). -/
def hexDigit (c : Char) : Option (BitVec 4) :=
  if 48 ≤ c.toNat ∧ c.toNat ≤ 57 then some (BitVec.ofNat 4 (c.toNat - 48))
  else if 65 ≤ c.toNat ∧ c.toNat ≤ 70 then some (BitVec.ofNat 4 (c.toNat - 55))
  else if 97 ≤ c.toNat ∧ c.toNat ≤ 102 then some (BitVec.ofNat 4 (c.toNat - 87))
  else none

/-- The groups of four digits of one line, each one word, its first two digits the high byte (R78). None where a character
is no hexadecimal digit or a group is short (D11, log 13). -/
def wordsOfLine : List Char → Option (List Word)
  | [] => some []
  | a :: b :: c :: d :: rest =>
    match hexDigit a, hexDigit b, hexDigit c, hexDigit d, wordsOfLine rest with
    | some p, some q, some r, some s, some ws => some ((p ++ q ++ r ++ s : BitVec (4 + 4 + 4 + 4)) :: ws)
    | _, _, _, _, _ => none
  | _ => none

/-- The words of a data image's lines, in order (R78). -/
def wordsOfLines : List (List Char) → Option (List Word)
  | [] => some []
  | l :: ls =>
    match wordsOfLine l, wordsOfLines ls with
    | some ws, some rest => some (ws ++ rest)
    | _, _ => none

/-- Words at rising word indices from `k`. -/
def loadWords : Nat → List Word → Memory → Memory
  | _, [], m => m
  | k, w :: ws, m => loadWords (k + 1) ws (writeWord m k w)

/-- A data image (R78): the first group goes to word 0, and data past word 1023 is dropped. -/
def dataOfLines (lines : List (List Char)) : Option Memory :=
  match wordsOfLines lines with
  | some ws => some (loadWords 0 (ws.take Config.dataWords) [])
  | none => none

/-- Reset with the launch inputs `code_init` and `data_init` (R56, R290). -/
def State.launch (codeInit dataInit : Memory) : State := (State.reset.setCode codeInit).setData dataInit

/-- The state with a word placed where the next fetch reads, and the core about to fetch (log 11). -/
def placeWord (s : State) (w : Word) : State :=
  let a : Word := if addrOK s.pc then s.pc else 0
  (((s.setPc a).setCode (writeWord s.code (wordIndex a) w)).setPhase .fetchInstr).setHalt { s.halt with reason := .none }

/-! ### Outputs (R56) -/

/-- `halted`. -/
def State.halted (s : State) : Bool := s.phase == .halted

/-- The 2-bit code of a halt reason (R262, D4). -/
def HaltReason.code : HaltReason → BitVec 2
  | .none => 0
  | .illegalOpcode => 1
  | .infiniteLoop => 2
  | .illegalAddress => 3

/-- The data memory read port: a 10-bit address, a 16-bit word. -/
def State.dataPort (s : State) (a : BitVec 10) : Word := readWord s.data a.toNat

/-! ### The report line and the dump (R279, R280, R80) -/

/-- One lower-case hexadecimal digit (R280, D12). -/
def hexChar (d : BitVec 4) : Char := if d.toNat < 10 then Char.ofNat (48 + d.toNat) else Char.ofNat (87 + d.toNat)

/-- Two digits of a byte. -/
def hex2 (b : Byte) : List Char := [hexChar (b.extractLsb' 4 4), hexChar (b.extractLsb' 0 4)]

/-- Four digits with leading zeros (R280). -/
def hex4 (w : Word) : String := String.ofList (hex2 (highByte w) ++ hex2 (lowByte w))

/-- The line the driver prints for a halt record (R279); none where no halt occurred. -/
def reportLine (h : HaltRecord) : Option String :=
  match h.reason with
  | .none => none
  | .illegalOpcode => some ("Illegal instruction " ++ hex4 h.instr ++ " detected at address " ++ hex4 h.pc)
  | .infiniteLoop => some ("Possible infinite loop detected with instruction " ++ hex4 h.instr ++ " at address " ++ hex4 h.pc)
  | .illegalAddress =>
    some ("Illegal address " ++ hex4 h.addr ++ " detected with instruction " ++ hex4 h.instr ++ " at address " ++ hex4 h.pc)

/-- The text column of one byte: itself from 0x21 to 0x7E, else a dot (R80). -/
def dumpChar (b : Byte) : Char := if 0x21 ≤ b.toNat ∧ b.toNat ≤ 0x7E then Char.ofNat b.toNat else '.'

/-- Line `n` of the dump (R80): the offset in eight digits, two spaces, eight words, the text of the sixteen bytes. -/
def dumpLine (m : Memory) (n : Nat) : String :=
  let words := (List.range 8).map fun k => hex4 (readWord m (8 * n + k))
  let text := (List.range 16).map fun k => dumpChar (readByte m (16 * n + k))
  hex4 0 ++ hex4 (BitVec.ofNat 16 (16 * n)) ++ "  " ++ String.intercalate " " words ++ " |" ++ String.ofList text ++ "|"

/-- The dump of the first `extent` lines; `extent` is the spec's open parameter `dump_extent`, at most 128 (R81, D18). -/
def dump (m : Memory) (extent : Nat) : List String := (List.range (min extent 128)).map (dumpLine m)

/-- All that the driver prints after a halt (R279): the report line, two blank lines, the dump; none before a halt. -/
def hostOutput (s : State) (extent : Nat) : Option (List String) :=
  match reportLine s.halt with
  | some l => if s.halted then some (l :: "" :: "" :: dump s.data extent) else none
  | none => none

/-! ### Assembler text (R116) -/

def asmReg (r : RegIdx) : String := "R" ++ toString r.val

/-- `#n`, `n` decimal, -32..31. -/
def asmImm (rf : BitVec 6) : String := "#" ++ toString rf.toInt

/-- The text of an instruction: its mnemonic (R118) and its operands, memory operands in brackets. -/
def asmText (i : Instr) : String :=
  i.mnemonic ++ " " ++
  match i with
  | .addi rl n | .subi rl n | .andi rl n | .ori rl n | .xori rl n | .movi rl n => asmReg rl ++ ", " ++ asmImm n
  | .add rl rs | .sub rl rs | .and rl rs | .or rl rs | .xor rl rs => asmReg rl ++ ", " ++ asmReg rs
  | .movld rl rs => asmReg rl ++ ", [" ++ asmReg rs ++ "]"
  | .movsti rl n => "[" ++ asmReg rl ++ "], " ++ asmImm n
  | .movst rl rs => "[" ++ asmReg rl ++ "], " ++ asmReg rs
  | .shr rl | .shl rl | .jr rl => asmReg rl
  | .beq rl d | .bne rl d | .blt rl d | .bgt rl d | .ble rl d | .bge rl d => asmReg rl ++ ", " ++ asmImm d

end Sys2Proof.Machine
end

