-- ==== Sys2Proof/Machine/Flags.lean ====
section
/-! DEFINITION. The core has no flags, condition codes or predicates (spec 10_state.md R41): no instruction computes or
tests one. What stands in their place is the comparison each conditional branch makes for itself, left register against
`x[0]`, signed (44_branch.md R200, R204 to R209). -/

namespace Sys2Proof.Machine

/-- `signed(v)` (00_scope.md R12). -/
def signed (v : Word) : Int := if v.toNat < 0x8000 then (v.toNat : Int) else (v.toNat : Int) - 0x10000

/-- BEQ (R204). -/
def condEq (lhs rhs : Word) : Bool := signed lhs == signed rhs
/-- BNE (R205). -/
def condNe (lhs rhs : Word) : Bool := signed lhs != signed rhs
/-- BLT (R206). -/
def condLt (lhs rhs : Word) : Bool := decide (signed lhs < signed rhs)
/-- BGT (R207). -/
def condGt (lhs rhs : Word) : Bool := decide (signed lhs > signed rhs)
/-- BLE (R208). -/
def condLe (lhs rhs : Word) : Bool := decide (signed lhs ≤ signed rhs)
/-- BGE (R209). -/
def condGe (lhs rhs : Word) : Bool := decide (signed lhs ≥ signed rhs)

end Sys2Proof.Machine
end

