-- ==== Sys2Proof/Machine/Operands.lean ====
section
/-! DEFINITION. The right-operand forms and the FETCH_OPERANDS phase (spec 30_encoding.md R104 to R107,
45_control_unit.md R240, R241). -/

namespace Sys2Proof.Machine

/-- `sext_16` of the raw 6-bit field (00_scope.md R12, R106): bits 15..6 equal bit 5. Nothing is scaled. -/
def sext16 (rf : BitVec 6) : Word := rf.signExtend 16

/-- FETCH_OPERANDS (R240): the immediate form is sign-extended, the memory form is loaded whole (R241), the other forms
latch nothing. The only halt is a load's ILLEGAL_ADDRESS (R248). -/
def fetchOperands (right : RightOperand) (s : State) : Except State State :=
  match right with
  | .imm rf => .ok ((s.setOpnd (sext16 rf)).setPhase .executeInstr)
  | .memAtReg rs =>
    match memRead (s.readReg rs) s with
    | .error h => .error h
    | .ok v => .ok ((s.setOpnd v).setPhase .executeInstr)
  | .reg _ => .ok (s.setPhase .executeInstr)
  | .absent => .ok (s.setPhase .executeInstr)

end Sys2Proof.Machine
end

