-- ==== Sys2Proof/Machine/Execute.lean ====
section
/-! DEFINITION. What every instruction's run shares: the EXECUTE_INSTR phase around an instruction's effect, with the pc
update (spec 45_control_unit.md R242 to R244), WRITE_BACK (R245), and the run of one instruction from FETCH_OPERANDS to the
end (R250). -/

namespace Sys2Proof.Machine

/-- What an instruction's rule does in EXECUTE_INSTR: the state it leaves, before the pc update, and `jumped` (R202). -/
structure Effect where
  state : State
  jumped : Bool
  deriving DecidableEq, Repr

/-- The pc update (R244): plus one modulo 2^16 (10_state.md R39), unless the category is BRANCH and a jump occurred. -/
def advancePc (cat : BitVec 3) (e : Effect) : State :=
  if cat = 7 ∧ e.jumped then e.state else e.state.setPc (e.state.pc + 1)

/-- EXECUTE_INSTR (R242, R244): when the effect halts, the pc update does not happen (D3). -/
def executeInstr (cat : BitVec 3) (effect : State → Except State Effect) (s : State) : Except State State :=
  match effect s with
  | .error h => .error h
  | .ok e => .ok ((advancePc cat e).setPhase .writeBack)

/-- WRITE_BACK (R245): a placeholder. -/
def writeBack (s : State) : State := s.setPhase .fetchInstr

/-- One instruction from FETCH_OPERANDS through WRITE_BACK: the state at the next instruction boundary, or the halted
state (R246, R250). -/
def runInstr (d : Decoded) (effect : State → Except State Effect) (s : State) : Host.Outcome State Fault Refusal :=
  match fetchOperands d.right s with
  | .error h => .next h
  | .ok s1 =>
    match executeInstr d.cat effect s1 with
    | .error h => .next h
    | .ok s2 => .next (writeBack s2)

end Sys2Proof.Machine
end

