-- ==== Sys2Proof/Machine/Alu.lean ====
section
/-! DEFINITION. The ten arithmetic and logic instructions (spec 41_alu.md R140 to R154): `left <- left op right`, modulo
2^16, no flag, no halt of their own. -/

namespace Sys2Proof.Machine

/-- The immediate form (R140): the right operand is the operand latch. -/
def aluImm (op : Word → Word → Word) (rl : RegIdx) (s : State) : Except State Effect :=
  .ok { state := s.setReg rl (op (s.readReg rl) s.opnd), jumped := false }

/-- The register form (R140): both registers are read before the write (10_state.md R35). -/
def aluReg (op : Word → Word → Word) (rl rs : RegIdx) (s : State) : Except State Effect :=
  .ok { state := s.setReg rl (op (s.readReg rl) (s.readReg rs)), jumped := false }

/-- ADDI (R141). -/
def effectAddi (rl : RegIdx) : State → Except State Effect := aluImm (fun x y => x + y) rl

/-- ADD (R142). -/
def effectAdd (rl rs : RegIdx) : State → Except State Effect := aluReg (fun x y => x + y) rl rs

def execAddi (rl : RegIdx) (imm : BitVec 6) (s : State) : Host.Outcome State Fault Refusal :=
  runInstr (recordOf (.addi rl imm)) (effectAddi rl) s

def execAdd (rl rs : RegIdx) (s : State) : Host.Outcome State Fault Refusal :=
  runInstr (recordOf (.add rl rs)) (effectAdd rl rs) s

/-- SUBI (R144). -/
def effectSubi (rl : RegIdx) : State → Except State Effect := aluImm (fun x y => x - y) rl

/-- SUB (R145). -/
def effectSub (rl rs : RegIdx) : State → Except State Effect := aluReg (fun x y => x - y) rl rs

def execSubi (rl : RegIdx) (imm : BitVec 6) (s : State) : Host.Outcome State Fault Refusal :=
  runInstr (recordOf (.subi rl imm)) (effectSubi rl) s

def execSub (rl rs : RegIdx) (s : State) : Host.Outcome State Fault Refusal :=
  runInstr (recordOf (.sub rl rs)) (effectSub rl rs) s

/-- ANDI (R147). -/
def effectAndi (rl : RegIdx) : State → Except State Effect := aluImm (fun x y => x &&& y) rl

/-- AND (R148). -/
def effectAnd (rl rs : RegIdx) : State → Except State Effect := aluReg (fun x y => x &&& y) rl rs

def execAndi (rl : RegIdx) (imm : BitVec 6) (s : State) : Host.Outcome State Fault Refusal :=
  runInstr (recordOf (.andi rl imm)) (effectAndi rl) s

def execAnd (rl rs : RegIdx) (s : State) : Host.Outcome State Fault Refusal :=
  runInstr (recordOf (.and rl rs)) (effectAnd rl rs) s

/-- ORI (R150). -/
def effectOri (rl : RegIdx) : State → Except State Effect := aluImm (fun x y => x ||| y) rl

/-- OR (R151). -/
def effectOr (rl rs : RegIdx) : State → Except State Effect := aluReg (fun x y => x ||| y) rl rs

def execOri (rl : RegIdx) (imm : BitVec 6) (s : State) : Host.Outcome State Fault Refusal :=
  runInstr (recordOf (.ori rl imm)) (effectOri rl) s

def execOr (rl rs : RegIdx) (s : State) : Host.Outcome State Fault Refusal :=
  runInstr (recordOf (.or rl rs)) (effectOr rl rs) s

/-- XORI (R153). -/
def effectXori (rl : RegIdx) : State → Except State Effect := aluImm (fun x y => x ^^^ y) rl

/-- XOR (R154). -/
def effectXor (rl rs : RegIdx) : State → Except State Effect := aluReg (fun x y => x ^^^ y) rl rs

def execXori (rl : RegIdx) (imm : BitVec 6) (s : State) : Host.Outcome State Fault Refusal :=
  runInstr (recordOf (.xori rl imm)) (effectXori rl) s

def execXor (rl rs : RegIdx) (s : State) : Host.Outcome State Fault Refusal :=
  runInstr (recordOf (.xor rl rs)) (effectXor rl rs) s

end Sys2Proof.Machine
end

