-- ==== Sys2Proof/Machine/Branch.lean ====
section
/-! DEFINITION. The seven BRANCH instructions (spec 44_branch.md R200 to R214). They write no register and no memory; a
target outside 0..1023 is accepted here and halts at the next fetch (R212). -/

namespace Sys2Proof.Machine

/-- A conditional branch with predicate `p` (R203): `x[rl]` against `x[0]`; taken, `pc + opnd` modulo 2^16. Each branch
tests its own predicate only (R210). -/
def branchIf (p : Word → Word → Bool) (rl : RegIdx) (s : State) : Except State Effect :=
  if p (s.readReg rl) (s.readReg 0) then .ok { state := s.setPc (s.pc + s.opnd), jumped := true }
  else .ok { state := s, jumped := false }

/-- JR (R201): all 16 bits of the register, and no increment follows (C3). -/
def effectJr (rl : RegIdx) (s : State) : Except State Effect :=
  .ok { state := s.setPc (s.readReg rl), jumped := true }

def execJr (rl : RegIdx) (s : State) : Host.Outcome State Fault Refusal :=
  runInstr (recordOf (.jr rl)) (effectJr rl) s

/-- BEQ (R204). -/
def effectBeq (rl : RegIdx) : State → Except State Effect := branchIf condEq rl

def execBeq (rl : RegIdx) (disp : BitVec 6) (s : State) : Host.Outcome State Fault Refusal :=
  runInstr (recordOf (.beq rl disp)) (effectBeq rl) s

/-- BNE (R205). -/
def effectBne (rl : RegIdx) : State → Except State Effect := branchIf condNe rl

def execBne (rl : RegIdx) (disp : BitVec 6) (s : State) : Host.Outcome State Fault Refusal :=
  runInstr (recordOf (.bne rl disp)) (effectBne rl) s

/-- BLT (R206). -/
def effectBlt (rl : RegIdx) : State → Except State Effect := branchIf condLt rl

def execBlt (rl : RegIdx) (disp : BitVec 6) (s : State) : Host.Outcome State Fault Refusal :=
  runInstr (recordOf (.blt rl disp)) (effectBlt rl) s

/-- BGT (R207). -/
def effectBgt (rl : RegIdx) : State → Except State Effect := branchIf condGt rl

def execBgt (rl : RegIdx) (disp : BitVec 6) (s : State) : Host.Outcome State Fault Refusal :=
  runInstr (recordOf (.bgt rl disp)) (effectBgt rl) s

/-- BLE (R208). -/
def effectBle (rl : RegIdx) : State → Except State Effect := branchIf condLe rl

def execBle (rl : RegIdx) (disp : BitVec 6) (s : State) : Host.Outcome State Fault Refusal :=
  runInstr (recordOf (.ble rl disp)) (effectBle rl) s

/-- BGE (R209). -/
def effectBge (rl : RegIdx) : State → Except State Effect := branchIf condGe rl

def execBge (rl : RegIdx) (disp : BitVec 6) (s : State) : Host.Outcome State Fault Refusal :=
  runInstr (recordOf (.bge rl disp)) (effectBge rl) s

end Sys2Proof.Machine
end

