-- ==== Sys2Proof/Machine/Move.lean ====
section
/-! DEFINITION. The four MOVE instructions (spec 42_move.md R170 to R176), the only ones that touch data memory. The one
addressing mode is register indirect: the address is the whole value of a register (R175, 20_memory.md R67). -/

namespace Sys2Proof.Machine

/-- A register destination takes the operand latch whole. -/
def moveToReg (rl : RegIdx) (s : State) : Except State Effect :=
  .ok { state := s.setReg rl s.opnd, jumped := false }

/-- The address a MOVE to memory stores to: the value of the left register (R172, R173). -/
def storeAddress (rl : RegIdx) (s : State) : Word := s.readReg rl

/-- The address MOVLD loads from: the value of the right register (R171). -/
def loadAddress (rs : RegIdx) (s : State) : Word := s.readReg rs

/-- A memory destination: the address check comes before any write (D3). -/
def moveToMem (rl : RegIdx) (v : Word) (s : State) : Except State Effect :=
  match memWrite (storeAddress rl s) v s with
  | .error h => .error h
  | .ok t => .ok { state := t, jumped := false }

/-- MOVI (R170). -/
def effectMovi (rl : RegIdx) : State → Except State Effect := moveToReg rl

/-- MOVLD (R171): the word was loaded in FETCH_OPERANDS and is not sign-extended (R241). -/
def effectMovld (rl : RegIdx) : State → Except State Effect := moveToReg rl

/-- MOVSTI (R172). -/
def effectMovsti (rl : RegIdx) (s : State) : Except State Effect := moveToMem rl s.opnd s

/-- MOVST (R173). -/
def effectMovst (rl rs : RegIdx) (s : State) : Except State Effect := moveToMem rl (s.readReg rs) s

def execMovi (rl : RegIdx) (imm : BitVec 6) (s : State) : Host.Outcome State Fault Refusal :=
  runInstr (recordOf (.movi rl imm)) (effectMovi rl) s

def execMovld (rl rs : RegIdx) (s : State) : Host.Outcome State Fault Refusal :=
  runInstr (recordOf (.movld rl rs)) (effectMovld rl) s

def execMovsti (rl : RegIdx) (imm : BitVec 6) (s : State) : Host.Outcome State Fault Refusal :=
  runInstr (recordOf (.movsti rl imm)) (effectMovsti rl) s

def execMovst (rl rs : RegIdx) (s : State) : Host.Outcome State Fault Refusal :=
  runInstr (recordOf (.movst rl rs)) (effectMovst rl rs) s

end Sys2Proof.Machine
end

