-- ==== Sys2Proof/Machine/Shift.lean ====
section
/-! DEFINITION. The two SHIFT instructions (spec 43_shift.md R190, R191): logical, by exactly one, the bit shifted out
discarded. -/

namespace Sys2Proof.Machine

/-- A register-only operation on the left register. -/
def shiftReg (op : Word → Word) (rl : RegIdx) (s : State) : Except State Effect :=
  .ok { state := s.setReg rl (op (s.readReg rl)), jumped := false }

/-- SHR (R190). -/
def effectShr (rl : RegIdx) : State → Except State Effect := shiftReg (fun x => x >>> 1) rl

/-- SHL (R191). -/
def effectShl (rl : RegIdx) : State → Except State Effect := shiftReg (fun x => x <<< 1) rl

def execShr (rl : RegIdx) (s : State) : Host.Outcome State Fault Refusal :=
  runInstr (recordOf (.shr rl)) (effectShr rl) s

def execShl (rl : RegIdx) (s : State) : Host.Outcome State Fault Refusal :=
  runInstr (recordOf (.shl rl)) (effectShl rl) s

end Sys2Proof.Machine
end

