-- ==== Sys2Proof/Machine/Dispatch.lean ====
section
/-! DEFINITION. One arm per constructor of Instr. `exec i s` runs the instruction from FETCH_OPERANDS through WRITE_BACK in a
state whose fetch, decode and loop count are done (spec 45_control_unit.md R246, R250). -/

namespace Sys2Proof.Machine

def exec (i : Instr) (s : State) : Host.Outcome State Fault Refusal :=
  match i with
  | .addi rl imm => Sys2Proof.Machine.execAddi rl imm s
  | .add rl rs => Sys2Proof.Machine.execAdd rl rs s
  | .subi rl imm => Sys2Proof.Machine.execSubi rl imm s
  | .sub rl rs => Sys2Proof.Machine.execSub rl rs s
  | .andi rl imm => Sys2Proof.Machine.execAndi rl imm s
  | .and rl rs => Sys2Proof.Machine.execAnd rl rs s
  | .ori rl imm => Sys2Proof.Machine.execOri rl imm s
  | .or rl rs => Sys2Proof.Machine.execOr rl rs s
  | .xori rl imm => Sys2Proof.Machine.execXori rl imm s
  | .xor rl rs => Sys2Proof.Machine.execXor rl rs s
  | .movi rl imm => Sys2Proof.Machine.execMovi rl imm s
  | .movld rl rs => Sys2Proof.Machine.execMovld rl rs s
  | .movsti rl imm => Sys2Proof.Machine.execMovsti rl imm s
  | .movst rl rs => Sys2Proof.Machine.execMovst rl rs s
  | .shr rl => Sys2Proof.Machine.execShr rl s
  | .shl rl => Sys2Proof.Machine.execShl rl s
  | .jr rl => Sys2Proof.Machine.execJr rl s
  | .beq rl disp => Sys2Proof.Machine.execBeq rl disp s
  | .bne rl disp => Sys2Proof.Machine.execBne rl disp s
  | .blt rl disp => Sys2Proof.Machine.execBlt rl disp s
  | .bgt rl disp => Sys2Proof.Machine.execBgt rl disp s
  | .ble rl disp => Sys2Proof.Machine.execBle rl disp s
  | .bge rl disp => Sys2Proof.Machine.execBge rl disp s

end Sys2Proof.Machine
end

