-- ==== Sys2Proof/Machine/Phases.lean ====
section
/-! DEFINITION. The six-phase control unit, one phase a step (spec 45_control_unit.md R230 to R249), the core's own `step`
of 10_state.md R56, and the step folded to whole instructions (R250). -/

namespace Sys2Proof.Machine

/-- The effect of each instruction in EXECUTE_INSTR (R242). -/
def effectOf (i : Instr) : State → Except State Effect :=
  match i with
  | .addi rl _ => effectAddi rl
  | .add rl rs => effectAdd rl rs
  | .subi rl _ => effectSubi rl
  | .sub rl rs => effectSub rl rs
  | .andi rl _ => effectAndi rl
  | .and rl rs => effectAnd rl rs
  | .ori rl _ => effectOri rl
  | .or rl rs => effectOr rl rs
  | .xori rl _ => effectXori rl
  | .xor rl rs => effectXor rl rs
  | .movi rl _ => effectMovi rl
  | .movld rl _ => effectMovld rl
  | .movsti rl _ => effectMovsti rl
  | .movst rl rs => effectMovst rl rs
  | .shr rl => effectShr rl
  | .shl rl => effectShl rl
  | .jr rl => effectJr rl
  | .beq rl _ => effectBeq rl
  | .bne rl _ => effectBne rl
  | .blt rl _ => effectBlt rl
  | .bgt rl _ => effectBgt rl
  | .ble rl _ => effectBle rl
  | .bge rl _ => effectBge rl

/-- FETCH_INSTR (R232): the word at `pc` goes to `ir`; it never halts. -/
def fetchInstr (s : State) : State := (s.setIr (codeRead s.code s.pc)).setPhase .decodeInstr

/-- DECODE_INSTR (R233): latch the record, or halt ILLEGAL_OPCODE with nothing else changed (R234). -/
def decodeInstr (s : State) : Except State State :=
  match decodeRecord s.ir with
  | .error _ => .error (raiseHalt .illegalOpcode 0 s)
  | .ok d => .ok ((s.setDec (some d)).setPhase .calculateEa)

/-- CALCULATE_EA (R235, R236): count the visit; past the threshold, halt INFINITE_LOOP with the count kept. No address is
computed: the effective address is the value of a register when it is used. -/
def calculateEa (s : State) : Except State State :=
  if loopCount (countVisit s.loops s.pc.toNat) s.pc.toNat > Config.loopThreshold then
    .error (raiseHalt .infiniteLoop 0 (s.setLoops (countVisit s.loops s.pc.toNat)))
  else .ok ((s.setLoops (countVisit s.loops s.pc.toNat)).setPhase .fetchOperands)

/-- The next state of a phase: its successor's, or the halted state (R231, R247). -/
def phaseOutcome (r : Except State State) : Host.Outcome State Fault Refusal :=
  match r with
  | .ok t => .next t
  | .error h => .next h

/-- One step of the core, exactly one phase (R231, R246). The two faults are for states no run reaches (log 9). -/
def stepPhase (s : State) : Host.Outcome State Fault Refusal :=
  match s.phase with
  | .halted => .next s
  | .fetchInstr => .next (fetchInstr s)
  | .decodeInstr => phaseOutcome (decodeInstr s)
  | .calculateEa => if addrOK s.pc then phaseOutcome (calculateEa s) else .fault .noLoopCounter
  | .fetchOperands =>
    match s.dec.bind Decoded.toInstr with
    | none => .fault .noDecodedInstruction
    | some i => phaseOutcome (fetchOperands (recordOf i).right s)
  | .executeInstr =>
    match s.dec.bind Decoded.toInstr with
    | none => .fault .noDecodedInstruction
    | some i => phaseOutcome (executeInstr (recordOf i).cat (effectOf i) s)
  | .writeBack => .next (writeBack s)

/-- An instruction boundary: the next phase is FETCH_INSTR, or the core has halted. -/
def State.atBoundary (s : State) : Bool := s.phase == .fetchInstr || s.phase == .halted

/-- At most `n` phase steps, stopping at an instruction boundary. -/
def finishInstr : Nat → State → Host.Outcome State Fault Refusal
  | 0, s => .next s
  | n + 1, s =>
    if s.atBoundary then .next s
    else
      match stepPhase s with
      | .next t => finishInstr n t
      | .fault r => .fault r
      | .refused r => .refused r

/-- The step to the next instruction boundary (R250, D16). At FETCH_INSTR, a whole instruction: fetch, decode, count the
visit, then `exec`, the halts in the order of R248 and R267. Halted, nothing (R247). In the middle of an instruction, the
phases that are left of it. -/
def stepInstr (s : State) : Host.Outcome State Fault Refusal :=
  match s.phase with
  | .halted => .next s
  | .fetchInstr =>
    match decode (fetchInstr s).ir with
    | .error _ => .next (raiseHalt .illegalOpcode 0 (fetchInstr s))
    | .ok i =>
      match calculateEa (((fetchInstr s).setDec (some (recordOf i))).setPhase .calculateEa) with
      | .error h => .next h
      | .ok t => exec i t
  | _ => finishInstr 5 s

/-- `n` phase steps, stopping at the first fault or refusal. -/
def runPhases : Nat → State → Host.Outcome State Fault Refusal
  | 0, s => .next s
  | n + 1, s =>
    match stepPhase s with
    | .next t => runPhases n t
    | .fault r => .fault r
    | .refused r => .refused r

end Sys2Proof.Machine
end

