-- ==== Sys2Proof/Machine/Step.lean ====
section
/-! DEFINITION. The step of the model: to the next instruction boundary (spec 45_control_unit.md R250, decision D16). It only
calls what the other files of Machine define. -/

namespace Sys2Proof.Machine

/-- One step: a whole instruction from FETCH_INSTR, what is left of one begun, nothing once halted. -/
def step (s : State) : Host.Outcome State Fault Refusal := stepInstr s

/-- `s` with the instruction of `nbits` bits `w` placed where `step` fetches next, and the core at FETCH_INSTR, not halted,
so that the very next step runs it. It stands for the loader's write to code memory before a run (log 11). A `pc` outside
code memory has no word to hold it, so it becomes 0. -/
def State.withFetchWord (s : State) (nbits w : Nat) : State :=
  placeWord s (BitVec.ofNat 16 (w % 2 ^ nbits))

end Sys2Proof.Machine
end

