-- ==== Sys2Proof/Safety.lean ====
section
/-! DEFINITION. The terms claims about the core are stated in: the invariant of a run, the outcome of a run
(spec 60_exceptions.md R281), what a program can observe (10_state.md R54), and frames. -/

namespace Sys2Proof.Machine

/-- The phases in which `ir` holds the word at `pc` (R37, R48): from after the fetch until `pc` is written, and after a
halt, since a halting phase writes no `pc` (R264). -/
def Phase.holdsWord : Phase → Bool
  | .decodeInstr | .calculateEa | .fetchOperands | .executeInstr | .halted => true
  | .fetchInstr | .writeBack => false

/-- The phases in which `dec` holds the record of `ir` (R49). -/
def Phase.holdsRecord : Phase → Bool
  | .calculateEa | .fetchOperands | .executeInstr => true
  | .fetchInstr | .decodeInstr | .writeBack | .halted => false

/-- The operand latch holds the right operand's value (R50). -/
def State.operandLatched (s : State) : RightOperand → Prop
  | .imm rf => s.opnd = sext16 rf
  | .memAtReg rs => addrOK (s.readReg rs) = true ∧ s.opnd = readWord s.data (wordIndex (s.readReg rs))
  | .reg _ => True
  | .absent => True

/-- The invariant of a run. -/
structure State.Inv (s : State) : Prop where
  /-- Both memories and the counters are in canonical form, within their address spaces (R45, R60, R61). -/
  codeWf : s.code.wf = true
  dataWf : s.data.wf = true
  loopsWf : s.loops.wf = true
  /-- No count passes the threshold, but for the one visit that halts with INFINITE_LOOP (R46, R236). -/
  counts : ∀ a, loopCount s.loops a ≤ Config.loopThreshold ∨
    (s.halt.reason = .infiniteLoop ∧ a = s.halt.pc.toNat ∧ loopCount s.loops a = Config.loopThreshold + 1)
  /-- The core is halted exactly when a halt reason is set (R247, R264). -/
  haltedIff : s.phase = .halted ↔ s.halt.reason ≠ .none
  /-- Before a halt the record is as reset left it (R51, R55). -/
  noRecord : s.phase ≠ .halted → s.halt = { reason := .none, pc := 0, instr := 0, addr := 0 }
  /-- The record of a halt (R264): the halting instruction's own address and word; the data address of an ILLEGAL_ADDRESS
  halt is one the decoder refuses, and 0 otherwise. -/
  record : s.phase = .halted → s.halt.pc = s.pc ∧ s.halt.instr = s.ir
  recordAddr : s.phase = .halted → if s.halt.reason = .illegalAddress then addrOK s.halt.addr = false else s.halt.addr = 0
  /-- `ir` holds the word at `pc` (R37, R48). -/
  fetched : s.phase.holdsWord = true → s.ir = codeRead s.code s.pc
  /-- `dec` holds the record of `ir` (R49). -/
  decoded : s.phase.holdsRecord = true → ∃ i, decode s.ir = .ok i ∧ s.dec = some (recordOf i)
  /-- `opnd` holds the right operand in EXECUTE_INSTR (R50). -/
  latched : s.phase = .executeInstr → ∀ i, decode s.ir = .ok i → s.operandLatched (recordOf i).right

/-- The outcome of a run (R281): the halt record, the data memory and the register file. -/
structure RunOutcome where
  halt : HaltRecord
  data : Memory
  regs : Vector Word Config.nregs
  deriving DecidableEq, Repr

def State.outcome (s : State) : RunOutcome := { halt := s.halt, data := s.data, regs := s.regs }

/-- What a program observes, with the counters it observes through the INFINITE_LOOP halt (R54). -/
structure ProgramView where
  regs : Vector Word Config.nregs
  pc : Word
  code : Memory
  data : Memory
  loops : Counters
  deriving DecidableEq, Repr

def State.view (s : State) : ProgramView :=
  { regs := s.regs, pc := s.pc, code := s.code, data := s.data, loops := s.loops }

/-- Every register but `rl` keeps its value. -/
def RegsKeptBut (rl : RegIdx) (s t : State) : Prop := ∀ r, r ≠ rl → t.readReg r = s.readReg r

/-- Every register keeps its value. -/
def RegsKept (s t : State) : Prop := ∀ r, t.readReg r = s.readReg r

/-- Every byte of a memory keeps its value. -/
def BytesKept (m m' : Memory) : Prop := ∀ a, readByte m' a = readByte m a

/-- Every byte of a memory keeps its value but for the two bytes of word `i`. -/
def BytesKeptBut (i : Nat) (m m' : Memory) : Prop :=
  ∀ a, a ≠ 2 * i → a ≠ 2 * i + 1 → readByte m' a = readByte m a

/-- What no instruction's own phases (FETCH_OPERANDS to WRITE_BACK) write when it completes: code memory, every loop
counter, `ir`, `dec` and the halt record (R60, R44, R48, R49, R51). -/
def ControlKept (s t : State) : Prop :=
  t.code = s.code ∧ (∀ a, loopCount t.loops a = loopCount s.loops a) ∧ t.ir = s.ir ∧ t.dec = s.dec ∧ t.halt = s.halt

/-- The register an instruction writes, if any (R33). -/
def destination : Instr → Option RegIdx
  | .addi rl _ | .add rl _ | .subi rl _ | .sub rl _ | .andi rl _ | .and rl _ | .ori rl _ | .or rl _ | .xori rl _ | .xor rl _ => some rl
  | .movi rl _ | .movld rl _ => some rl
  | .movsti _ _ | .movst _ _ => none
  | .shr rl | .shl rl => some rl
  | .jr _ | .beq _ _ | .bne _ _ | .blt _ _ | .bgt _ _ | .ble _ _ | .bge _ _ => none

/-- Every word that matches `pattern` under the opcode table's mask decodes to the instruction `f` reads from its fields. -/
def WordsDecodeTo (pattern : Word) (f : Word → Instr) : Prop :=
  ∀ w : Word, w &&& 0xFC00 = pattern → decode w = .ok (f w)

/-- The instruction completes: it answers a next state at the next instruction boundary in which register `rl` holds a value
`result` accepts, the operand latch holds `opnd`, `pc` is one more (modulo 2^16, D15, log 4), and nothing else has changed. -/
def CompletesInReg (i : Instr) (s : State) (rl : RegIdx) (result : Word → Prop) (opnd : Word) : Prop :=
  ∃ t, exec i s = .next t ∧ result (t.readReg rl) ∧ RegsKeptBut rl s t ∧ t.pc = s.pc + 1 ∧ t.opnd = opnd ∧
    BytesKept s.data t.data ∧ ControlKept s t ∧ t.phase = .fetchInstr

/-- The instruction completes by storing `v` at word index `a`, the high byte first, and writes no register; `pc` is one more
(modulo 2^16, D15, log 4). -/
def CompletesInWord (i : Instr) (s : State) (a : Nat) (v opnd : Word) : Prop :=
  ∃ t, exec i s = .next t ∧ readByte t.data (2 * a) = v.extractLsb' 8 8 ∧ readByte t.data (2 * a + 1) = v.extractLsb' 0 8 ∧
    BytesKeptBut a s.data t.data ∧ RegsKept s t ∧ t.pc = s.pc + 1 ∧ t.opnd = opnd ∧ ControlKept s t ∧ t.phase = .fetchInstr

/-- The instruction completes by setting `pc` alone. -/
def CompletesInPc (i : Instr) (s : State) (pc opnd : Word) : Prop :=
  ∃ t, exec i s = .next t ∧ t.pc = pc ∧ RegsKept s t ∧ t.opnd = opnd ∧ BytesKept s.data t.data ∧ ControlKept s t ∧
    t.phase = .fetchInstr

/-- The instruction halts ILLEGAL_ADDRESS at data address `addr` with nothing written but the latch, the halt record and the
phase. -/
def HaltsIllegalAddress (i : Instr) (s : State) (addr opnd : Word) : Prop :=
  ∃ t, exec i s = .next t ∧ t.phase = .halted ∧
    t.halt = { reason := .illegalAddress, pc := s.pc, instr := s.ir, addr := addr } ∧
    RegsKept s t ∧ t.pc = s.pc ∧ t.opnd = opnd ∧ BytesKept s.data t.data ∧ t.code = s.code ∧
    (∀ a, loopCount t.loops a = loopCount s.loops a) ∧ t.ir = s.ir ∧ t.dec = s.dec

/-- The state `exec` is given by `step`: fetched, decoded to `i` and counted, before FETCH_OPERANDS (R246). -/
def State.prepared (s : State) (i : Instr) : State :=
  ((((s.setIr (codeRead s.code s.pc)).setDec (some (recordOf i))).setLoops (countVisit s.loops s.pc.toNat)).setPhase
    .fetchOperands)

end Sys2Proof.Machine
end

