-- ==== Sys2Proof/Certificates/Slice0/Obligations.lean ====
section
/-! DEFINITION. The statements for the provers. Each docstring names the rule of the spec it formalises, or the decision it
rests on. -/

open Sys2Proof Sys2Proof.Machine

/-! ### Encoding and decoding (30_encoding.md) -/

/-- Decode and encode agree, for every instruction and every operand value. -/
def Obligations.DecodeGivesBackEveryEncodedInstruction : Prop :=
  ∀ i : Instr, decode (encode i) = .ok i

/-- A legal word is its instruction's encoding but for the bits its format ignores. -/
def Obligations.EncodeGivesBackEveryLegalWordUpToIgnoredBits : Prop :=
  ∀ (w : Word) (i : Instr), decode w = .ok i → encode i = w &&& i.format.usedBits

/-- R102: the fields of a word are the source's shifts and masks of its two bytes. -/
def Obligations.FieldsFollowTheTwoByteDerivation : Prop :=
  ∀ l r : Byte,
    (fieldCat (wordOfBytes l r)).toNat = (l.toNat >>> 5) &&& 0b111 ∧
    (fieldTyp (wordOfBytes l r)).toNat = (l.toNat >>> 2) &&& 0b111 ∧
    (fieldRl (wordOfBytes l r)).val = ((l.toNat &&& 0b11) <<< 2) ||| ((r.toNat >>> 6) &&& 0b11) ∧
    (fieldRf (wordOfBytes l r)).toNat = r.toNat &&& 0b111111 ∧
    (fieldCat (wordOfBytes l r)) = (wordOfBytes l r).extractLsb' 13 3 ∧
    (fieldTyp (wordOfBytes l r)) = (wordOfBytes l r).extractLsb' 10 3 ∧
    (fieldRl (wordOfBytes l r)).val = ((wordOfBytes l r).extractLsb' 6 4).toNat ∧
    (fieldRf (wordOfBytes l r)) = (wordOfBytes l r).extractLsb' 0 6

/-- R110: a word decodes exactly when it matches one of the 23 rows under mask 0xFC00, and then to that row's instruction
in that row's format; no word matches two rows. -/
def Obligations.DecoderAgreesWithTheOpcodeTable : Prop :=
  opcodeRows.length = 23 ∧
  (∀ (w : Word) (i : Instr), decode w = .ok i → ∃ r ∈ opcodeRows, w &&& 0xFC00 = r.pattern ∧ r.mnemonic = i.mnemonic) ∧
  (∀ (w : Word) (r : OpcodeRow), r ∈ opcodeRows → w &&& 0xFC00 = r.pattern →
    ∃ i, decode w = .ok i ∧ i.mnemonic = r.mnemonic ∧ i.format = r.format) ∧
  (∀ (w : Word) (r q : OpcodeRow), r ∈ opcodeRows → q ∈ opcodeRows → w &&& 0xFC00 = r.pattern → w &&& 0xFC00 = q.pattern →
    r = q)

/-- R112: every word decodes or is ILLEGAL_OPCODE, and which of the two depends on the category and type alone. -/
def Obligations.VerdictDependsOnCategoryAndTypeOnly : Prop :=
  (∀ w : Word, (∃ i, decode w = .ok i) ∨ decode w = .error (.illegalOpcode w)) ∧
  (∀ w v : Word, w.extractLsb' 13 3 = v.extractLsb' 13 3 → w.extractLsb' 10 3 = v.extractLsb' 10 3 →
    ((∃ i, decode w = .ok i) ↔ ∃ j, decode v = .ok j))

/-- R105: the register index is w[5:2], and w[1:0] select nothing in a form that uses it. -/
def Obligations.LowTwoBitsOfRegisterFormsSelectNothing : Prop :=
  ∀ (w v : Word) (i : Instr), i.format = .R → decode w = .ok i → w &&& 0xFFFC = v &&& 0xFFFC →
    decode v = .ok i ∧ ((recordOf i).right = .reg (w.extractLsb' 2 4).toFin ∨
      (recordOf i).right = .memAtReg (w.extractLsb' 2 4).toFin)

/-- The right field of SHR, SHL and JR selects nothing: the spec's decision D9 (log 6). -/
def Obligations.RightFieldOfRegisterOnlyFormsSelectsNothing : Prop :=
  ∀ (w v : Word) (i : Instr), i.format = .U → decode w = .ok i → w &&& 0xFFC0 = v &&& 0xFFC0 → decode v = .ok i

/-- The illegal words are those of R113's table: types 2 to 7 of ADD to XOR and SHIFT, 2, 3, 6, 7 of MOVE, 7 of BRANCH. -/
def Obligations.IllegalWordsAreThoseOfTheTable : Prop :=
  ∀ w : Word, decode w = .error (.illegalOpcode w) ↔
    ((w.extractLsb' 13 3).toNat ≤ 4 ∧ 2 ≤ (w.extractLsb' 10 3).toNat) ∨
    ((w.extractLsb' 13 3).toNat = 5 ∧ (w.extractLsb' 10 3).toNat ∈ [2, 3, 6, 7]) ∨
    ((w.extractLsb' 13 3).toNat = 6 ∧ 2 ≤ (w.extractLsb' 10 3).toNat) ∨
    ((w.extractLsb' 13 3).toNat = 7 ∧ (w.extractLsb' 10 3).toNat = 7)

/-- The decoder's records are exactly the well-formed ones, and each is the record of the instruction the word stands for
(the records of R49 and R111). -/
def Obligations.DecodedRecordsAreTheWellFormedOnes : Prop :=
  (∀ d : Decoded, d.wellFormed = true ↔ ∃ w, decodeRecord w = .ok d) ∧
  (∀ (w : Word) (d : Decoded), decodeRecord w = .ok d → ∃ i, decode w = .ok i ∧ recordOf i = d)

/-- Words of 95_test_vectors.md, one of each family, decode to the instructions they are listed for. -/
def Obligations.ListedWordsDecodeAsListed : Prop :=
  decode 0x0044 = .ok (.addi 1 4) ∧ decode 0x0404 = .ok (.add 0 1) ∧ decode 0x0405 = .ok (.add 0 1) ∧
  decode 0xA4C8 = .ok (.movld 3 2) ∧ decode 0xB484 = .ok (.movst 2 1) ∧ decode 0xC07F = .ok (.shr 1) ∧
  decode 0xE06A = .ok (.jr 1) ∧ decode 0xE442 = .ok (.beq 1 2) ∧ decode 0xF87F = .ok (.bge 1 0x3F) ∧
  decode 0x0890 = .error (.illegalOpcode 0x0890) ∧ decode 0xFFFF = .error (.illegalOpcode 0xFFFF)

/-- R106: the decoder keeps the raw 6-bit field, and FETCH_OPERANDS latches it sign-extended, unscaled, -32 to 31. -/
def Obligations.ImmediateIsSignExtendedAfterDecode : Prop :=
  (∀ (w : Word) (d : Decoded) (rf : BitVec 6), decodeRecord w = .ok d → d.right = .imm rf → rf = w.extractLsb' 0 6) ∧
  (∀ (rf : BitVec 6) (s : State), ∃ t, fetchOperands (.imm rf) s = .ok t ∧ t.opnd.toInt = rf.toInt ∧
    -32 ≤ t.opnd.toInt ∧ t.opnd.toInt ≤ 31)

/-! ### Arithmetic and logic (41_alu.md) -/

/-- R141, R142, R143: ADDI and ADD, their words, the sum modulo 2^16 read unsigned or signed, and their frame. -/
def Obligations.AddWritesTheSum : Prop :=
  WordsDecodeTo 0x0000 (fun w => .addi (fieldRl w) (fieldRf w)) ∧
  WordsDecodeTo 0x0400 (fun w => .add (fieldRl w) (fieldRs w)) ∧
  (∀ (rl : RegIdx) (imm : BitVec 6) (s : State), CompletesInReg (.addi rl imm) s rl
    (fun v => v.toNat = ((s.readReg rl).toNat + (sext16 imm).toNat) % 0x10000 ∧
      v.toInt = Int.bmod ((s.readReg rl).toInt + imm.toInt) 0x10000) (sext16 imm)) ∧
  (∀ (rl rs : RegIdx) (s : State), CompletesInReg (.add rl rs) s rl
    (fun v => v.toNat = ((s.readReg rl).toNat + (s.readReg rs).toNat) % 0x10000 ∧
      v.toInt = Int.bmod ((s.readReg rl).toInt + (s.readReg rs).toInt) 0x10000) s.opnd)

/-- R144, R145, R146: SUBI and SUB, left minus right modulo 2^16. -/
def Obligations.SubWritesTheDifference : Prop :=
  WordsDecodeTo 0x2000 (fun w => .subi (fieldRl w) (fieldRf w)) ∧
  WordsDecodeTo 0x2400 (fun w => .sub (fieldRl w) (fieldRs w)) ∧
  (∀ (rl : RegIdx) (imm : BitVec 6) (s : State), CompletesInReg (.subi rl imm) s rl
    (fun v => v.toNat = ((s.readReg rl).toNat + (0x10000 - (sext16 imm).toNat)) % 0x10000 ∧
      v.toInt = Int.bmod ((s.readReg rl).toInt - imm.toInt) 0x10000) (sext16 imm)) ∧
  (∀ (rl rs : RegIdx) (s : State), CompletesInReg (.sub rl rs) s rl
    (fun v => v.toNat = ((s.readReg rl).toNat + (0x10000 - (s.readReg rs).toNat)) % 0x10000 ∧
      v.toInt = Int.bmod ((s.readReg rl).toInt - (s.readReg rs).toInt) 0x10000) s.opnd)

/-- R147 to R151, R153, R154: each result bit comes from the two operand bits at its position. -/
def Obligations.LogicWorksBitByBit : Prop :=
  (WordsDecodeTo 0x4000 (fun w => .andi (fieldRl w) (fieldRf w)) ∧
    WordsDecodeTo 0x4400 (fun w => .and (fieldRl w) (fieldRs w)) ∧
    WordsDecodeTo 0x6000 (fun w => .ori (fieldRl w) (fieldRf w)) ∧
    WordsDecodeTo 0x6400 (fun w => .or (fieldRl w) (fieldRs w)) ∧
    WordsDecodeTo 0x8000 (fun w => .xori (fieldRl w) (fieldRf w)) ∧
    WordsDecodeTo 0x8400 (fun w => .xor (fieldRl w) (fieldRs w))) ∧
  (∀ (rl : RegIdx) (imm : BitVec 6) (s : State),
    CompletesInReg (.andi rl imm) s rl
      (fun v => ∀ k, v.getLsbD k = ((s.readReg rl).getLsbD k && (sext16 imm).getLsbD k)) (sext16 imm) ∧
    CompletesInReg (.ori rl imm) s rl
      (fun v => ∀ k, v.getLsbD k = ((s.readReg rl).getLsbD k || (sext16 imm).getLsbD k)) (sext16 imm) ∧
    CompletesInReg (.xori rl imm) s rl
      (fun v => ∀ k, v.getLsbD k = ((s.readReg rl).getLsbD k ^^ (sext16 imm).getLsbD k)) (sext16 imm)) ∧
  (∀ (rl rs : RegIdx) (s : State),
    CompletesInReg (.and rl rs) s rl
      (fun v => ∀ k, v.getLsbD k = ((s.readReg rl).getLsbD k && (s.readReg rs).getLsbD k)) s.opnd ∧
    CompletesInReg (.or rl rs) s rl
      (fun v => ∀ k, v.getLsbD k = ((s.readReg rl).getLsbD k || (s.readReg rs).getLsbD k)) s.opnd ∧
    CompletesInReg (.xor rl rs) s rl
      (fun v => ∀ k, v.getLsbD k = ((s.readReg rl).getLsbD k ^^ (s.readReg rs).getLsbD k)) s.opnd)

/-! ### Moves (42_move.md, 20_memory.md) -/

/-- R170: MOVI. -/
def Obligations.MoviWritesTheImmediate : Prop :=
  WordsDecodeTo 0xA000 (fun w => .movi (fieldRl w) (fieldRf w)) ∧
  (∀ (rl : RegIdx) (imm : BitVec 6) (s : State),
    CompletesInReg (.movi rl imm) s rl (fun v => v.toInt = imm.toInt) (sext16 imm))

/-- R171: MOVLD loads the whole word the right register names, high byte first; at 0x0400 and above it halts with that
address, in FETCH_OPERANDS, and has written neither a register nor `pc`; an unlisted word is 0xFFFF. -/
def Obligations.MovldLoadsTheWord : Prop :=
  WordsDecodeTo 0xA400 (fun w => .movld (fieldRl w) (fieldRs w)) ∧
  (∀ (rl rs : RegIdx) (s : State), (s.readReg rs).toNat < 0x0400 →
    CompletesInReg (.movld rl rs) s rl
      (fun v => v = readByte s.data (2 * (s.readReg rs).toNat) ++ readByte s.data (2 * (s.readReg rs).toNat + 1))
      (readByte s.data (2 * (s.readReg rs).toNat) ++ readByte s.data (2 * (s.readReg rs).toNat + 1))) ∧
  (∀ (rl rs : RegIdx) (s : State), 0x0400 ≤ (s.readReg rs).toNat →
    HaltsIllegalAddress (.movld rl rs) s (s.readReg rs) s.opnd ∧
      ∃ h, fetchOperands (recordOf (.movld rl rs)).right s = .error h) ∧
  (∀ a, readWord State.reset.data a = 0xFFFF)

/-- MOVSTI (R172): both bytes of the sign-extended immediate at the address the left register holds, or, at 0x0400 and
above, an ILLEGAL_ADDRESS halt that wrote nothing and left `pc`. That the check comes before the write and the pc update is
the spec's decision D3 (log 5). -/
def Obligations.MovstiStoresTheImmediate : Prop :=
  WordsDecodeTo 0xB000 (fun w => .movsti (fieldRl w) (fieldRf w)) ∧
  (∀ (rl : RegIdx) (imm : BitVec 6) (s : State) (a : Nat), wordIndex (storeAddress rl s) = a →
    (s.readReg rl).toNat < 0x0400 →
      a = (s.readReg rl).toNat ∧ CompletesInWord (.movsti rl imm) s a (sext16 imm) (sext16 imm)) ∧
  (∀ (rl : RegIdx) (imm : BitVec 6) (s : State), 0x0400 ≤ (s.readReg rl).toNat →
    HaltsIllegalAddress (.movsti rl imm) s (s.readReg rl) (sext16 imm))

/-- MOVST (R173): as MOVSTI with the right register's value; the halt's order is the spec's decision D3 (log 5). -/
def Obligations.MovstStoresTheRegister : Prop :=
  WordsDecodeTo 0xB400 (fun w => .movst (fieldRl w) (fieldRs w)) ∧
  (∀ (rl rs : RegIdx) (s : State) (a : Nat), wordIndex (storeAddress rl s) = a → (s.readReg rl).toNat < 0x0400 →
    a = (s.readReg rl).toNat ∧ CompletesInWord (.movst rl rs) s a (s.readReg rs) s.opnd) ∧
  (∀ (rl rs : RegIdx) (s : State), 0x0400 ≤ (s.readReg rl).toNat →
    HaltsIllegalAddress (.movst rl rs) s (s.readReg rl) s.opnd)

/-- R88, R177: a value MOVST stored is what MOVLD reads back from that address in any later state whose word there is still
the stored one. -/
def Obligations.StoreThenLoadGivesTheValueBack : Prop :=
  ∀ (rl rs rd ra : RegIdx) (s t u : State),
    (s.readReg rl).toNat < 0x0400 → exec (.movst rl rs) s = .next t →
    u.readReg ra = s.readReg rl → (∀ b, b = 2 * (s.readReg rl).toNat ∨ b = 2 * (s.readReg rl).toNat + 1 →
      readByte u.data b = readByte t.data b) →
    ∃ v, exec (.movld rd ra) u = .next v ∧ v.readReg rd = s.readReg rs

/-- R66: the address decoder accepts 0..1023, read unsigned or signed, by bits 15..10 alone, and selects bits 9..0; a data
access at any other address halts ILLEGAL_ADDRESS. -/
def Obligations.AddressDecoderAcceptsTenBits : Prop :=
  ∀ a : Word,
    (addrOK a = true ↔ a.extractLsb' 10 6 = 0) ∧ (addrOK a = true ↔ a.toNat < 1024) ∧
    (addrOK a = true ↔ 0 ≤ a.toInt ∧ a.toInt < 1024) ∧ wordIndex a = a.toNat % 1024 ∧
    (addrOK a = true → wordIndex a = a.toNat) ∧
    (addrOK a = false → ∀ (s : State) (v : Word),
      (∃ h, memRead a s = .error h ∧ h.phase = .halted ∧ h.halt.reason = .illegalAddress ∧ h.halt.addr = a) ∧
      ∃ h, memWrite a v s = .error h ∧ h.phase = .halted ∧ h.halt.reason = .illegalAddress ∧ h.halt.addr = a)

/-- R62: code memory is reached by fetch only, and data memory read by MOVLD and written by MOVSTI and MOVST only. Exchanging
data memory leaves every other instruction's effect as it was, and a store stores the same two bytes at the same address into
whatever memory it is given, or nothing where it halts. -/
def Obligations.OnlyMovesReachDataAndOnlyFetchReachesCode : Prop :=
  (∀ (i : Instr) (s t : State) (c : Memory), exec i s = .next t →
    exec i (s.setCode c) = .next (t.setCode c)) ∧
  (∀ (i : Instr) (s t : State) (m : Memory), (∀ rl rs, i ≠ .movld rl rs) → (∀ rl imm, i ≠ .movsti rl imm) →
    (∀ rl rs, i ≠ .movst rl rs) → exec i s = .next t → exec i (s.setData m) = .next (t.setData m)) ∧
  (∀ (i : Instr) (rl : RegIdx) (s t : State) (m : Memory), ((∃ imm, i = .movsti rl imm) ∨ ∃ rs, i = .movst rl rs) →
    exec i s = .next t → ∃ m', exec i (s.setData m) = .next (t.setData m') ∧
      (t.phase = .halted → m' = m) ∧
      (t.phase ≠ .halted → ∀ a, readByte m' a =
        if a = 2 * wordIndex (storeAddress rl s) ∨ a = 2 * wordIndex (storeAddress rl s) + 1 then readByte t.data a
        else readByte m a)) ∧
  (∀ (i : Instr) (s t : State), (∀ rl imm, i ≠ .movsti rl imm) → (∀ rl rs, i ≠ .movst rl rs) → exec i s = .next t →
    BytesKept s.data t.data) ∧
  (∀ (s : State) (m : Memory), fetchInstr (s.setData m) = (fetchInstr s).setData m)

/-! ### Shifts (43_shift.md) -/

/-- R190, R191: SHR and SHL move every bit by one place, bring in 0 and drop the bit shifted out. -/
def Obligations.ShiftsMoveBitsByOne : Prop :=
  WordsDecodeTo 0xC000 (fun w => .shr (fieldRl w)) ∧ WordsDecodeTo 0xC400 (fun w => .shl (fieldRl w)) ∧
  (∀ (rl : RegIdx) (s : State), CompletesInReg (.shr rl) s rl
    (fun v => v.getLsbD 15 = false ∧ ∀ k, k < 15 → v.getLsbD k = (s.readReg rl).getLsbD (k + 1)) s.opnd) ∧
  (∀ (rl : RegIdx) (s : State), CompletesInReg (.shl rl) s rl
    (fun v => v.getLsbD 0 = false ∧ ∀ k, k < 15 → v.getLsbD (k + 1) = (s.readReg rl).getLsbD k) s.opnd)

/-! ### Branches (44_branch.md) -/

/-- JR (R201): `pc` is the register's whole value and nothing else changes, whatever `x[0]` holds. -/
def Obligations.JrSetsPcToTheRegister : Prop :=
  WordsDecodeTo 0xE000 (fun w => .jr (fieldRl w)) ∧
  (∀ (rl : RegIdx) (s : State), CompletesInPc (.jr rl) s (s.readReg rl) s.opnd)

/-- BEQ and BNE (R203, R204, R205). That `pc` plus the displacement, or plus one, is modulo 2^16 is the spec's decision D15
(log 4). -/
def Obligations.EqualityBranchesCompareWithRegisterZero : Prop :=
  WordsDecodeTo 0xE400 (fun w => .beq (fieldRl w) (fieldRf w)) ∧
  WordsDecodeTo 0xE800 (fun w => .bne (fieldRl w) (fieldRf w)) ∧
  (∀ (rl : RegIdx) (disp : BitVec 6) (s : State),
    CompletesInPc (.beq rl disp) s
      (if (s.readReg rl).toInt = (s.readReg 0).toInt then BitVec.ofInt 16 (s.pc.toNat + disp.toInt)
        else BitVec.ofNat 16 (s.pc.toNat + 1)) (sext16 disp) ∧
    CompletesInPc (.bne rl disp) s
      (if (s.readReg rl).toInt ≠ (s.readReg 0).toInt then BitVec.ofInt 16 (s.pc.toNat + disp.toInt)
        else BitVec.ofNat 16 (s.pc.toNat + 1)) (sext16 disp))

/-- BLT and BGT, signed, each testing its own predicate (R203, R206, R207, R210). That `pc` plus the displacement, or plus
one, is modulo 2^16 is the spec's decision D15 (log 4). -/
def Obligations.StrictBranchesCompareSigned : Prop :=
  WordsDecodeTo 0xEC00 (fun w => .blt (fieldRl w) (fieldRf w)) ∧
  WordsDecodeTo 0xF000 (fun w => .bgt (fieldRl w) (fieldRf w)) ∧
  (∀ (rl : RegIdx) (disp : BitVec 6) (s : State),
    CompletesInPc (.blt rl disp) s
      (if (s.readReg rl).toInt < (s.readReg 0).toInt then BitVec.ofInt 16 (s.pc.toNat + disp.toInt)
        else BitVec.ofNat 16 (s.pc.toNat + 1)) (sext16 disp) ∧
    CompletesInPc (.bgt rl disp) s
      (if (s.readReg rl).toInt > (s.readReg 0).toInt then BitVec.ofInt 16 (s.pc.toNat + disp.toInt)
        else BitVec.ofNat 16 (s.pc.toNat + 1)) (sext16 disp))

/-- BLE and BGE, signed (R203, R208, R209). That `pc` plus the displacement, or plus one, is modulo 2^16 is the spec's
decision D15 (log 4). -/
def Obligations.NonStrictBranchesCompareSigned : Prop :=
  WordsDecodeTo 0xF400 (fun w => .ble (fieldRl w) (fieldRf w)) ∧
  WordsDecodeTo 0xF800 (fun w => .bge (fieldRl w) (fieldRf w)) ∧
  (∀ (rl : RegIdx) (disp : BitVec 6) (s : State),
    CompletesInPc (.ble rl disp) s
      (if (s.readReg rl).toInt ≤ (s.readReg 0).toInt then BitVec.ofInt 16 (s.pc.toNat + disp.toInt)
        else BitVec.ofNat 16 (s.pc.toNat + 1)) (sext16 disp) ∧
    CompletesInPc (.bge rl disp) s
      (if (s.readReg rl).toInt ≥ (s.readReg 0).toInt then BitVec.ofInt 16 (s.pc.toNat + disp.toInt)
        else BitVec.ofNat 16 (s.pc.toNat + 1)) (sext16 disp))

/-- Every instruction that does not branch and does not halt adds one to `pc` (R244; R140, R176 and R190 by family). That the
addition is modulo 2^16 is the spec's decision D15 (log 4). -/
def Obligations.PcAdvancesByOneUnlessABranch : Prop :=
  ∀ (i : Instr) (s t : State), (recordOf i).cat ≠ 7 → exec i s = .next t → t.phase ≠ .halted →
    t.pc = BitVec.ofNat 16 (s.pc.toNat + 1)

/-- No instruction changes a register but its destination, and stores and branches have none (R33). -/
def Obligations.OnlyTheDestinationRegisterChanges : Prop :=
  ∀ (i : Instr) (s t : State) (r : RegIdx), exec i s = .next t → t.readReg r ≠ s.readReg r → destination i = some r

/-! ### The control unit (45_control_unit.md) -/

/-- A step at an instruction boundary fetches, decodes and counts, and then is `exec` of the decoded instruction (the folded
step of R250, decision D16, log 1). -/
def Obligations.StepRunsTheDecodedInstruction : Prop :=
  ∀ (s : State) (i : Instr), s.phase = .fetchInstr → decode (codeRead s.code s.pc) = .ok i →
    loopCount s.loops s.pc.toNat < 1024000 →
    step s = exec i { s with
      ir := codeRead s.code s.pc
      dec := some (recordOf i)
      loops := countVisit s.loops s.pc.toNat
      phase := .fetchOperands } ∧
    loopCount (countVisit s.loops s.pc.toNat) s.pc.toNat = loopCount s.loops s.pc.toNat + 1

/-- R232, R245: FETCH_INSTR stages the word at `pc` and WRITE_BACK does nothing, each going on to its successor. -/
def Obligations.FetchStagesTheWordAndWriteBackDoesNothing : Prop :=
  ∀ s : State,
    (s.phase = .fetchInstr → stepPhase s = .next { s with ir := codeRead s.code s.pc, phase := .decodeInstr }) ∧
    (s.phase = .writeBack → stepPhase s = .next { s with phase := .fetchInstr })

/-- DECODE_INSTR latches the record or halts ILLEGAL_OPCODE (R233, with the record of R264). That the record's `addr` is 0 is
the spec's decision D13 (log 7). -/
def Obligations.DecodePhaseLatchesOrHalts : Prop :=
  ∀ s : State, s.phase = .decodeInstr →
    (∀ d, decodeRecord s.ir = .ok d → stepPhase s = .next { s with dec := some d, phase := .calculateEa }) ∧
    (∀ e, decodeRecord s.ir = .error e → stepPhase s = .next { s with
      halt := { reason := .illegalOpcode, pc := s.pc, instr := s.ir, addr := 0 }
      phase := .halted })

/-- CALCULATE_EA counts the visit, keeps the count, and halts INFINITE_LOOP past 1,024,000 (R236, with the record of R264);
after such a halt of a run the count at `halt_pc` is 1,024,001. That the record's `addr` is 0 is the spec's decision D13
(log 7). -/
def Obligations.LoopDetectionCountsAndHalts : Prop :=
  ∀ s : State, s.phase = .calculateEa → s.pc.toNat < 1024 → ∃ t, stepPhase s = .next t ∧
    loopCount t.loops s.pc.toNat = loopCount s.loops s.pc.toNat + 1 ∧
    (∀ a, a ≠ s.pc.toNat → loopCount t.loops a = loopCount s.loops a) ∧
    (loopCount s.loops s.pc.toNat + 1 ≤ 1024000 → t = { s with loops := t.loops, phase := .fetchOperands }) ∧
    (loopCount s.loops s.pc.toNat + 1 > 1024000 → t = { s with
      loops := t.loops
      phase := .halted
      halt := { reason := .infiniteLoop, pc := s.pc, instr := s.ir, addr := 0 } }) ∧
    (s.Inv → t.halt.reason = .infiniteLoop → loopCount t.loops t.halt.pc.toNat = 1024001)

/-- R240, R241: FETCH_OPERANDS latches an immediate sign-extended and a loaded word whole, halts a load outside 0..1023, and
latches nothing else. -/
def Obligations.OperandPhaseLatchesByForm : Prop :=
  ∀ (s : State) (i : Instr), s.phase = .fetchOperands → s.dec = some (recordOf i) →
    (∀ rf, (recordOf i).right = .imm rf →
      stepPhase s = .next { s with opnd := BitVec.ofInt 16 rf.toInt, phase := .executeInstr }) ∧
    (∀ rs, (recordOf i).right = .memAtReg rs → (s.readReg rs).toNat < 1024 →
      stepPhase s = .next { s with
        opnd := readByte s.data (2 * (s.readReg rs).toNat) ++ readByte s.data (2 * (s.readReg rs).toNat + 1)
        phase := .executeInstr }) ∧
    (∀ rs, (recordOf i).right = .memAtReg rs → 1024 ≤ (s.readReg rs).toNat →
      stepPhase s = .next { s with
        halt := { reason := .illegalAddress, pc := s.pc, instr := s.ir, addr := s.readReg rs }
        phase := .halted }) ∧
    (∀ rs, (recordOf i).right = .reg rs → stepPhase s = .next { s with phase := .executeInstr }) ∧
    ((recordOf i).right = .absent → stepPhase s = .next { s with phase := .executeInstr })

/-- R247: a halted core changes no state, however many steps follow. -/
def Obligations.HaltIsTerminal : Prop :=
  ∀ (s : State) (n : Nat), s.phase = .halted → Host.Core.run core n s = .next s ∧ runPhases n s = .next s

/-- R248: where each halt arises, and on exactly which condition. FETCH_INSTR and WRITE_BACK never halt. -/
def Obligations.EachHaltArisesInItsPhase : Prop :=
  ∀ s t : State, s.phase ≠ .halted → stepPhase s = .next t →
    (t.phase = .halted ↔
      (s.phase = .decodeInstr ∧ decode s.ir = .error (.illegalOpcode s.ir)) ∨
      (s.phase = .calculateEa ∧ loopCount s.loops s.pc.toNat + 1 > 1024000) ∨
      (s.phase = .fetchOperands ∧ ∃ rl rs, s.dec = some (recordOf (.movld rl rs)) ∧ 1024 ≤ (s.readReg rs).toNat) ∨
      (s.phase = .executeInstr ∧ ∃ rl, 1024 ≤ (s.readReg rl).toNat ∧
        ((∃ imm, s.dec = some (recordOf (.movsti rl imm))) ∨ ∃ rs, s.dec = some (recordOf (.movst rl rs))))) ∧
    (t.phase = .halted → t.halt.reason =
      if s.phase = .decodeInstr then .illegalOpcode else if s.phase = .calculateEa then .infiniteLoop else .illegalAddress)

/-- The order of the halts in one instruction (R267, which the spec derives): ILLEGAL_OPCODE, then INFINITE_LOOP, then
ILLEGAL_ADDRESS. -/
def Obligations.FirstHaltInPhaseOrderWins : Prop :=
  ∀ s : State, s.phase = .fetchInstr → ∃ t, step s = .next t ∧
    (∀ e, decode (codeRead s.code s.pc) = .error e → t.phase = .halted ∧ t.halt.reason = .illegalOpcode) ∧
    (∀ i, decode (codeRead s.code s.pc) = .ok i → 1024000 ≤ loopCount s.loops s.pc.toNat →
      t.phase = .halted ∧ t.halt.reason = .infiniteLoop) ∧
    (∀ i, decode (codeRead s.code s.pc) = .ok i → loopCount s.loops s.pc.toNat < 1024000 →
      (t.phase = .halted ↔
        (∃ rl rs, i = .movld rl rs ∧ 1024 ≤ (s.readReg rs).toNat) ∨
        (∃ rl imm, i = .movsti rl imm ∧ 1024 ≤ (s.readReg rl).toNat) ∨
        (∃ rl rs, i = .movst rl rs ∧ 1024 ≤ (s.readReg rl).toNat)) ∧
      (t.phase = .halted → t.halt.reason = .illegalAddress))

/-- A halt is precise (R265, which the spec derives, with decisions D3 and D13, log 5 and log 7): no register, no data byte, no code
byte and not `pc` has changed, the record names the halting instruction, and the only trace is the count made before a later
halt. -/
def Obligations.HaltsArePrecise : Prop :=
  ∀ s t : State, s.phase = .fetchInstr → step s = .next t → t.phase = .halted →
    RegsKept s t ∧ t.pc = s.pc ∧ BytesKept s.data t.data ∧ t.code = s.code ∧ t.halt.reason ≠ .none ∧
    t.halt.pc = s.pc ∧ t.halt.instr = codeRead s.code s.pc ∧
    (t.halt.reason ≠ .illegalAddress → t.halt.addr = 0) ∧
    (∀ a, loopCount t.loops a =
      loopCount s.loops a + if t.halt.reason ≠ .illegalOpcode ∧ a = s.pc.toNat then 1 else 0)

/-- A fetch outside code memory reads 0xFFFF and the step halts ILLEGAL_OPCODE at that `pc`, counting nothing: the spec's
decision D2 (log 2). Inside, it reads the word at `pc`. -/
def Obligations.FetchOutsideCodeMemoryHalts : Prop :=
  (∀ s : State, s.pc.toNat < 1024 → codeRead s.code s.pc = readWord s.code s.pc.toNat) ∧
  (∀ s : State, s.phase = .fetchInstr → 1024 ≤ s.pc.toNat → ∃ t, step s = .next t ∧ t.phase = .halted ∧
    t.halt = { reason := .illegalOpcode, pc := s.pc, instr := 0xFFFF, addr := 0 } ∧ t.view = s.view)

/-- A run of the folded machine is the run of the phase machine, six phases an instruction (R249, R250, which the spec derives,
with decision D16, log 1). -/
def Obligations.RunIsSixPhasesPerInstruction : Prop :=
  ∀ (n : Nat) (s : State), s.phase = .fetchInstr → Host.Core.run core n s = runPhases (6 * n) s

/-- How many phases an instruction takes (R249, R296): six when it completes, two, three, four or five when it halts in
DECODE_INSTR, CALCULATE_EA, FETCH_OPERANDS or EXECUTE_INSTR, and no boundary is passed before. -/
def Obligations.InstructionTakesSixPhasesOrHaltsEarlier : Prop :=
  ∀ s t : State, s.phase = .fetchInstr → step s = .next t →
    (t.phase ≠ .halted → t.phase = .fetchInstr ∧ runPhases 6 s = .next t ∧
      ∀ k, 0 < k → k < 6 → ∃ u, runPhases k s = .next u ∧ u.atBoundary = false) ∧
    (t.phase = .halted → ∃ k, runPhases k s = .next t ∧
      ((k = 2 ∧ t.halt.reason = .illegalOpcode) ∨ (k = 3 ∧ t.halt.reason = .infiniteLoop) ∨
        (k = 4 ∧ t.halt.reason = .illegalAddress ∧ ∃ rl rs, decode (codeRead s.code s.pc) = .ok (.movld rl rs)) ∨
        (k = 5 ∧ t.halt.reason = .illegalAddress ∧
          ((∃ rl imm, decode (codeRead s.code s.pc) = .ok (.movsti rl imm)) ∨
            ∃ rl rs, decode (codeRead s.code s.pc) = .ok (.movst rl rs)))) ∧
      ∀ j, 0 < j → j < k → ∃ u, runPhases j s = .next u ∧ u.atBoundary = false)

/-- Every run halts, after at most 1,048,576,000 instructions that complete (R238, which the spec derives). -/
def Obligations.EveryRunHalts : Prop :=
  ∀ s : State, s.phase = .fetchInstr →
    ∃ n t, n ≤ 1048576000 ∧ Host.Core.run core (n + 1) s = .next t ∧ t.phase = .halted

/-- A taken branch to its own address, or a JR to itself, loops in place and halts INFINITE_LOOP on the visit after 1,024,000
visits, and not before (R214, with the record of R264). That the record's `addr` is 0 is the spec's decision D13 (log 7). -/
def Obligations.BranchInPlaceHaltsOnTheVisitPastTheThreshold : Prop :=
  ∀ (s t : State) (i : Instr), s.phase = .fetchInstr → decode (codeRead s.code s.pc) = .ok i → (recordOf i).cat = 7 →
    exec i (s.prepared i) = .next t → t.pc = s.pc → loopCount s.loops s.pc.toNat ≤ 1024000 →
    (∀ n, n ≤ 1024000 - loopCount s.loops s.pc.toNat → ∃ u, Host.Core.run core n s = .next u ∧ u.phase = .fetchInstr ∧
      u.pc = s.pc ∧ RegsKept s u ∧ loopCount u.loops s.pc.toNat = loopCount s.loops s.pc.toNat + n) ∧
    ∃ u, Host.Core.run core (1024000 - loopCount s.loops s.pc.toNat + 1) s = .next u ∧ u.phase = .halted ∧
      u.halt = { reason := .infiniteLoop, pc := s.pc, instr := codeRead s.code s.pc, addr := 0 } ∧
      loopCount u.loops s.pc.toNat = 1024001

/-- The counters are cumulative (R237): a step lowers none, adds at most one, and only at `pc`. -/
def Obligations.CountersOnlyGrow : Prop :=
  ∀ s t : State, step s = .next t → ∀ a,
    loopCount s.loops a ≤ loopCount t.loops a ∧ loopCount t.loops a ≤ loopCount s.loops a + 1 ∧
    (loopCount t.loops a ≠ loopCount s.loops a → a = s.pc.toNat)

/-- R79: no number of steps changes code memory. -/
def Obligations.CodeMemoryIsNeverWritten : Prop :=
  ∀ (n : Nat) (s t : State), Host.Core.run core n s = .next t → t.code = s.code

/-! ### Invariants -/

/-- Every step keeps the invariant of a run: canonical memories and counters, counts within the threshold, the halt record
set exactly when halted, and the latches holding what R48 to R50 say in the phases that read them. -/
def Obligations.StepKeepsTheRunInvariant : Prop :=
  ∀ s t : State, s.Inv → step s = .next t → t.Inv

/-- Every phase step keeps the invariant. -/
def Obligations.PhaseStepKeepsTheRunInvariant : Prop :=
  ∀ s t : State, s.Inv → stepPhase s = .next t → t.Inv

/-- The invariant holds at reset. -/
def Obligations.ResetMeetsTheRunInvariant : Prop := State.reset.Inv

/-- The invariant holds at the launch of any code and data image the loaders accept. -/
def Obligations.LaunchMeetsTheRunInvariant : Prop :=
  ∀ (bytes : List Byte) (lines : List (List Char)) (c d : Memory), codeOfImage bytes = some c → dataOfLines lines = some d →
    (State.launch c d).Inv

/-- From a state of the invariant neither machine stops: every step and every phase step answers a next state, so the two
model faults are for states no run reaches (log 9). -/
def Obligations.NoFaultInAnyRun : Prop :=
  ∀ s : State, s.Inv → (∃ t, step s = .next t) ∧ ∃ u, stepPhase s = .next u

/-- What a program cannot observe (R54, which the spec derives): two states that agree on registers, `pc`, memories and
counters step to states that agree on them and on any halt, whatever `ir`, `dec`, `opnd` and the halt record held. -/
def Obligations.LatchesAreNotObservable : Prop :=
  ∀ s u : State, s.phase = .fetchInstr → u.phase = .fetchInstr → s.view = u.view →
    ∃ s' u', step s = .next s' ∧ step u = .next u' ∧ s'.view = u'.view ∧ s'.phase = u'.phase ∧
      (s'.phase = .halted → s'.halt = u'.halt ∧ s'.outcome = u'.outcome)

/-! ### Launch and the host's side -/

/-- Launch (R55, R290): registers, `pc`, counters 0, phase FETCH_INSTR, no halt reason, the images in the memories; with no
image, every word is 0xFFFF. That the latches and the halt record are 0 is the spec's decision D14 (log 3). -/
def Obligations.LaunchPutsEveryPieceOfStateAtItsResetValue : Prop :=
  (∀ (c d : Memory), (∀ r, (State.launch c d).readReg r = 0) ∧ (State.launch c d).pc = 0 ∧
    (∀ a, loopCount (State.launch c d).loops a = 0) ∧ (State.launch c d).phase = .fetchInstr ∧
    (State.launch c d).code = c ∧ (State.launch c d).data = d ∧ (State.launch c d).ir = 0 ∧ (State.launch c d).dec = none ∧
    (State.launch c d).opnd = 0 ∧ (State.launch c d).halt = { reason := .none, pc := 0, instr := 0, addr := 0 }) ∧
  State.reset = State.launch [] [] ∧ (∀ a, readWord State.reset.code a = 0xFFFF ∧ readWord State.reset.data a = 0xFFFF)

/-- R77: a code image of at most 2048 bytes is copied verbatim, two bytes a word, high byte first, missing bytes 0xFF. -/
def Obligations.CodeImageIsCopiedVerbatim : Prop :=
  ∀ bytes : List Byte, bytes.length ≤ 2048 → ∃ m, codeOfImage bytes = some m ∧ m.wf = true ∧
    ∀ a, a < 1024 → readWord m a = (bytes[2 * a]?).getD 0xFF ++ (bytes[2 * a + 1]?).getD 0xFF

/-- A data image (R78): groups of four digits in order from word 0, digits past word 1023 dropped, words no group reaches
0xFFFF; a word's own four digits read as that word, a blank line as no word, no lines as no words. Images the spec says
nothing of are left out (D11, log 13). -/
def Obligations.DataImageFillsWordsInOrder : Prop :=
  (∀ (lines : List (List Char)) (ws : List Word), wordsOfLines lines = some ws →
    ∃ m, dataOfLines lines = some m ∧ m.wf = true ∧ ∀ a, a < 1024 → readWord m a = (ws[a]?).getD 0xFFFF) ∧
  (∀ (w : Word) (rest : List Char) (ws : List Word), wordsOfLine rest = some ws →
    wordsOfLine ((hex4 w).toList ++ rest) = some (w :: ws)) ∧
  (∀ (l : List Char) (ls : List (List Char)) (ws vs : List Word), wordsOfLine l = some ws → wordsOfLines ls = some vs →
    wordsOfLines (l :: ls) = some (ws ++ vs)) ∧
  wordsOfLine [] = some [] ∧ wordsOfLines [] = some []

/-- The pseudo-instruction NOP (R117, decision D5): its step changes nothing a program observes but `pc` and its own count. -/
def Obligations.NopChangesOnlyPcAndItsCount : Prop :=
  ∀ s : State, s.phase = .fetchInstr → codeRead s.code s.pc = 0x0000 → loopCount s.loops s.pc.toNat < 1024000 →
    ∃ t, step s = .next t ∧ RegsKept s t ∧ t.pc = s.pc + 1 ∧ t.code = s.code ∧ BytesKept s.data t.data ∧
      (∀ a, loopCount t.loops a = loopCount s.loops a + if a = s.pc.toNat then 1 else 0) ∧ t.halt = s.halt ∧
      t.phase = .fetchInstr

/-- A placed word is the one the next step fetches, and the table reading of a word is the decoder's (the model's own
convention, log 11). -/
def Obligations.PlacedWordIsTheOneFetched : Prop :=
  (∀ (s : State) (w : Word), (s.withFetchWord 16 w.toNat).phase = .fetchInstr ∧
    codeRead (s.withFetchWord 16 w.toNat).code (s.withFetchWord 16 w.toNat).pc = w ∧
    RegsKept s (s.withFetchWord 16 w.toNat) ∧ (s.withFetchWord 16 w.toNat).data = s.data ∧
    (s.withFetchWord 16 w.toNat).loops = s.loops ∧
    (s.pc.toNat < 1024 → (s.withFetchWord 16 w.toNat).pc = s.pc ∧
      BytesKeptBut s.pc.toNat s.code (s.withFetchWord 16 w.toNat).code)) ∧
  (∀ (w : Word) (i : Instr), decodeTableWord 16 w.toNat = some i ↔ decode w = .ok i)
end

