-- ==== Sys2Proof/Laws/Sparse.lean ====
section
/-! SUPPORT. The laws of sparse tables: read after write, the frame of a write, and the canonical form that every write
keeps. The read laws hold of every list; the canonical form makes equal tables equal data. -/

namespace Sys2Proof.Machine

variable {α : Type} (d : α) (hi : Nat)

@[simp] theorem sparseRead_nil (k : Nat) : sparseRead d k [] = d := rfl

theorem sparseRead_erase_self (k : Nat) (l : List (Nat × α)) : sparseRead d k (sparseErase k l) = d := by
  induction l with
  | nil => rfl
  | cons e l ih =>
    by_cases h : e.1 = k
    · simpa [sparseErase, h] using ih
    · simpa [sparseErase, sparseRead, h] using ih

theorem sparseRead_erase_of_ne {k j : Nat} (h : j ≠ k) (l : List (Nat × α)) :
    sparseRead d j (sparseErase k l) = sparseRead d j l := by
  induction l with
  | nil => rfl
  | cons e l ih =>
    by_cases he : e.1 = k
    · have : e.1 ≠ j := fun hj => h (hj ▸ he)
      simpa [sparseErase, sparseRead, he, this] using ih.trans (by simp [h.symm])
    · simp [sparseErase, sparseRead, he, ih]

theorem sparseRead_insert_of_ne {k j : Nat} (h : j ≠ k) (v : α) (l : List (Nat × α)) :
    sparseRead d j (sparseInsert k v l) = sparseRead d j l := by
  induction l with
  | nil => simp [sparseInsert, sparseRead, h.symm]
  | cons e l ih =>
    by_cases he : k < e.1
    · simp [sparseInsert, sparseRead, he, h.symm]
    · simp [sparseInsert, sparseRead, he, ih]

/-- An inserted key is found where no entry of it stood before. -/
theorem sparseRead_insert_erase (k : Nat) (v : α) (l : List (Nat × α)) :
    sparseRead d k (sparseInsert k v (sparseErase k l)) = v := by
  induction l with
  | nil => simp [sparseErase, sparseInsert, sparseRead]
  | cons e l ih =>
    by_cases he : e.1 = k
    · simpa [sparseErase, he] using ih
    · by_cases hk : k < e.1
      · simp [sparseErase, sparseInsert, sparseRead, he, hk]
      · simpa [sparseErase, sparseInsert, sparseRead, he, hk] using ih

variable [DecidableEq α]

theorem sparseRead_write_self (k : Nat) (v : α) (l : List (Nat × α)) :
    sparseRead d k (sparseWrite d k v l) = v := by
  by_cases hv : v = d
  · simp [sparseWrite, hv, sparseRead_erase_self]
  · simp [sparseWrite, hv, sparseRead_insert_erase]

theorem sparseRead_write_of_ne {k j : Nat} (h : j ≠ k) (v : α) (l : List (Nat × α)) :
    sparseRead d j (sparseWrite d k v l) = sparseRead d j l := by
  by_cases hv : v = d
  · simp [sparseWrite, hv, sparseRead_erase_of_ne d h]
  · simp [sparseWrite, hv, sparseRead_insert_of_ne d h, sparseRead_erase_of_ne d h]

theorem sparseWf_mono {lo lo' : Nat} (h : lo' ≤ lo) {l : List (Nat × α)} (hl : sparseWf d hi lo l = true) :
    sparseWf d hi lo' l = true := by
  cases l with
  | nil => rfl
  | cons e l =>
    simp only [sparseWf, Bool.and_eq_true, decide_eq_true_eq] at hl ⊢
    exact ⟨⟨⟨h.trans hl.1.1.1, hl.1.1.2⟩, hl.1.2⟩, hl.2⟩

theorem sparseWf_erase (k : Nat) {lo : Nat} {l : List (Nat × α)} (hl : sparseWf d hi lo l = true) :
    sparseWf d hi lo (sparseErase k l) = true := by
  induction l generalizing lo with
  | nil => rfl
  | cons e l ih =>
    simp only [sparseWf, Bool.and_eq_true, decide_eq_true_eq] at hl
    by_cases he : e.1 = k
    · simpa [sparseErase, he] using sparseWf_mono d hi (by omega) (ih hl.2)
    · simpa [sparseErase, sparseWf, he, hl.1.1.1, hl.1.1.2, hl.1.2] using ih hl.2

theorem sparseWf_insert_erase {k : Nat} {v : α} (hk : k < hi) (hv : v ≠ d) {lo : Nat} (hlo : lo ≤ k)
    {l : List (Nat × α)} (hl : sparseWf d hi lo l = true) :
    sparseWf d hi lo (sparseInsert k v (sparseErase k l)) = true := by
  induction l generalizing lo with
  | nil => simp [sparseErase, sparseInsert, sparseWf, hlo, hk, hv]
  | cons e l ih =>
    simp only [sparseWf, Bool.and_eq_true, decide_eq_true_eq] at hl
    by_cases he : e.1 = k
    · simpa [sparseErase, he] using ih hlo (sparseWf_mono d hi (by omega) hl.2)
    · by_cases hlt : k < e.1
      · have htail : sparseWf d hi (e.1 + 1) (sparseErase k l) = true := sparseWf_erase d hi k hl.2
        simp only [sparseErase, he, sparseInsert, hlt, if_true, if_false, sparseWf, Bool.and_eq_true, decide_eq_true_eq]
        exact ⟨⟨⟨hlo, hk⟩, hv⟩, ⟨⟨by omega, hl.1.1.2⟩, hl.1.2⟩, htail⟩
      · have htail := ih (lo := e.1 + 1) (by omega) hl.2
        simp only [sparseErase, he, sparseInsert, hlt, if_false, sparseWf, Bool.and_eq_true, decide_eq_true_eq]
        exact ⟨⟨⟨hl.1.1.1, hl.1.1.2⟩, hl.1.2⟩, htail⟩

/-- Every write below the bound keeps the canonical form. -/
theorem sparseWf_write {k : Nat} (v : α) (hk : k < hi) {l : List (Nat × α)} (hl : sparseWf d hi 0 l = true) :
    sparseWf d hi 0 (sparseWrite d k v l) = true := by
  by_cases hv : v = d
  · simpa [sparseWrite, hv] using sparseWf_erase d hi k hl
  · simpa [sparseWrite, hv] using sparseWf_insert_erase d hi hk hv (Nat.zero_le k) hl

end Sys2Proof.Machine
end

