-- ==== Sys2Proof/Laws/Memory.lean ====
section
/-! SUPPORT. The laws of bytes, words and counters over sparse tables, and the address decoder in numbers. -/

namespace Sys2Proof.Machine

/-! ### Bytes -/

@[simp] theorem readByte_writeByte_self (m : Memory) (a : Nat) (b : Byte) : readByte (writeByte m a b) a = b :=
  sparseRead_write_self _ a b m

theorem readByte_writeByte_of_ne (m : Memory) {a c : Nat} (b : Byte) (h : c ≠ a) :
    readByte (writeByte m a b) c = readByte m c :=
  sparseRead_write_of_ne _ h b m

theorem writeByte_wf {m : Memory} {a : Nat} (b : Byte) (ha : a < Config.memoryBytes) (hm : Memory.wf m = true) :
    Memory.wf (writeByte m a b) = true :=
  sparseWf_write _ _ b ha hm

/-! ### Words -/

theorem wordOfBytes_highByte_lowByte (w : Word) : wordOfBytes (highByte w) (lowByte w) = w := by
  apply BitVec.eq_of_getLsbD_eq
  intro i hi
  simp only [wordOfBytes, highByte, lowByte, BitVec.getLsbD_append, BitVec.getLsbD_extractLsb']
  by_cases h : i < 8
  · simp [h]
  · have h8 : i - 8 < 8 := by omega
    have hs : 8 + (i - 8) = i := by omega
    simp [h, h8, hs]

theorem readByte_writeWord_of_ne (m : Memory) {i c : Nat} (v : Word) (hh : c ≠ 2 * i) (hl : c ≠ 2 * i + 1) :
    readByte (writeWord m i v) c = readByte m c := by
  rw [writeWord, readByte_writeByte_of_ne _ _ hl, readByte_writeByte_of_ne _ _ hh]

theorem readByte_writeWord_high (m : Memory) (i : Nat) (v : Word) : readByte (writeWord m i v) (2 * i) = highByte v := by
  rw [writeWord, readByte_writeByte_of_ne _ _ (by omega), readByte_writeByte_self]

theorem readByte_writeWord_low (m : Memory) (i : Nat) (v : Word) : readByte (writeWord m i v) (2 * i + 1) = lowByte v := by
  rw [writeWord, readByte_writeByte_self]

theorem readWord_writeWord_self (m : Memory) (i : Nat) (v : Word) : readWord (writeWord m i v) i = v := by
  rw [readWord, readByte_writeWord_high, readByte_writeWord_low, wordOfBytes_highByte_lowByte]

theorem readWord_writeWord_of_ne (m : Memory) {i j : Nat} (v : Word) (h : j ≠ i) :
    readWord (writeWord m i v) j = readWord m j := by
  rw [readWord, readByte_writeWord_of_ne _ _ (by omega) (by omega), readByte_writeWord_of_ne _ _ (by omega) (by omega),
    readWord]

theorem writeWord_wf {m : Memory} {i : Nat} (v : Word) (hi : i < Config.dataWords) (hm : Memory.wf m = true) :
    Memory.wf (writeWord m i v) = true := by
  have : i < 1024 := hi
  exact writeByte_wf _ (show 2 * i + 1 < 2048 by omega) (writeByte_wf _ (show 2 * i < 2048 by omega) hm)

/-! ### Counters -/

@[simp] theorem loopCount_countVisit_self (c : Counters) (a : Nat) :
    loopCount (countVisit c a) a = loopCount c a + 1 :=
  sparseRead_write_self _ a _ c

theorem loopCount_countVisit_of_ne (c : Counters) {a b : Nat} (h : b ≠ a) :
    loopCount (countVisit c a) b = loopCount c b :=
  sparseRead_write_of_ne _ h _ c

theorem countVisit_wf {c : Counters} {a : Nat} (ha : a < Config.codeWords) (hc : Counters.wf c = true) :
    Counters.wf (countVisit c a) = true :=
  sparseWf_write _ _ _ ha hc

/-! ### The address decoder -/

theorem addrOK_iff (a : Word) : addrOK a = true ↔ a.toNat < 1024 := by
  have ha := a.isLt
  simp only [addrOK, beq_iff_eq, ← BitVec.toNat_inj, BitVec.extractLsb'_toNat, Nat.shiftRight_eq_div_pow]
  simp
  omega

theorem wordIndex_lt (a : Word) : wordIndex a < Config.dataWords := (a.extractLsb' 0 10).isLt

theorem wordIndex_of_addrOK {a : Word} (h : addrOK a = true) : wordIndex a = a.toNat := by
  rw [addrOK_iff] at h
  simp [wordIndex, BitVec.extractLsb'_toNat, Nat.mod_eq_of_lt h]

theorem codeRead_of_not_addrOK (m : Memory) {a : Word} (h : addrOK a = false) : codeRead m a = 0xFFFF := by
  simp [codeRead, h, Config.fillWord]

end Sys2Proof.Machine
end

