-- ==== Sys2Proof/Laws/State.lean ====
section
/-! SUPPORT. One lemma per field per update of State, and reading a register after each update. -/

namespace Sys2Proof.Machine

@[simp] theorem State.setReg_regs (s : State) (i : RegIdx) (v : Word) : (s.setReg i v).regs = s.regs.set i.val v := rfl
@[simp] theorem State.setReg_pc (s : State) (i : RegIdx) (v : Word) : (s.setReg i v).pc = s.pc := rfl
@[simp] theorem State.setReg_code (s : State) (i : RegIdx) (v : Word) : (s.setReg i v).code = s.code := rfl
@[simp] theorem State.setReg_data (s : State) (i : RegIdx) (v : Word) : (s.setReg i v).data = s.data := rfl
@[simp] theorem State.setReg_loops (s : State) (i : RegIdx) (v : Word) : (s.setReg i v).loops = s.loops := rfl
@[simp] theorem State.setReg_phase (s : State) (i : RegIdx) (v : Word) : (s.setReg i v).phase = s.phase := rfl
@[simp] theorem State.setReg_ir (s : State) (i : RegIdx) (v : Word) : (s.setReg i v).ir = s.ir := rfl
@[simp] theorem State.setReg_dec (s : State) (i : RegIdx) (v : Word) : (s.setReg i v).dec = s.dec := rfl
@[simp] theorem State.setReg_opnd (s : State) (i : RegIdx) (v : Word) : (s.setReg i v).opnd = s.opnd := rfl
@[simp] theorem State.setReg_halt (s : State) (i : RegIdx) (v : Word) : (s.setReg i v).halt = s.halt := rfl

@[simp] theorem State.setPc_regs (s : State) (v : Word) : (s.setPc v).regs = s.regs := rfl
@[simp] theorem State.setPc_pc (s : State) (v : Word) : (s.setPc v).pc = v := rfl
@[simp] theorem State.setPc_code (s : State) (v : Word) : (s.setPc v).code = s.code := rfl
@[simp] theorem State.setPc_data (s : State) (v : Word) : (s.setPc v).data = s.data := rfl
@[simp] theorem State.setPc_loops (s : State) (v : Word) : (s.setPc v).loops = s.loops := rfl
@[simp] theorem State.setPc_phase (s : State) (v : Word) : (s.setPc v).phase = s.phase := rfl
@[simp] theorem State.setPc_ir (s : State) (v : Word) : (s.setPc v).ir = s.ir := rfl
@[simp] theorem State.setPc_dec (s : State) (v : Word) : (s.setPc v).dec = s.dec := rfl
@[simp] theorem State.setPc_opnd (s : State) (v : Word) : (s.setPc v).opnd = s.opnd := rfl
@[simp] theorem State.setPc_halt (s : State) (v : Word) : (s.setPc v).halt = s.halt := rfl
@[simp] theorem State.readReg_setPc (s : State) (v : Word) (r : RegIdx) : (s.setPc v).readReg r = s.readReg r := rfl

@[simp] theorem State.setCode_regs (s : State) (m : Memory) : (s.setCode m).regs = s.regs := rfl
@[simp] theorem State.setCode_pc (s : State) (m : Memory) : (s.setCode m).pc = s.pc := rfl
@[simp] theorem State.setCode_code (s : State) (m : Memory) : (s.setCode m).code = m := rfl
@[simp] theorem State.setCode_data (s : State) (m : Memory) : (s.setCode m).data = s.data := rfl
@[simp] theorem State.setCode_loops (s : State) (m : Memory) : (s.setCode m).loops = s.loops := rfl
@[simp] theorem State.setCode_phase (s : State) (m : Memory) : (s.setCode m).phase = s.phase := rfl
@[simp] theorem State.setCode_ir (s : State) (m : Memory) : (s.setCode m).ir = s.ir := rfl
@[simp] theorem State.setCode_dec (s : State) (m : Memory) : (s.setCode m).dec = s.dec := rfl
@[simp] theorem State.setCode_opnd (s : State) (m : Memory) : (s.setCode m).opnd = s.opnd := rfl
@[simp] theorem State.setCode_halt (s : State) (m : Memory) : (s.setCode m).halt = s.halt := rfl
@[simp] theorem State.readReg_setCode (s : State) (m : Memory) (r : RegIdx) : (s.setCode m).readReg r = s.readReg r := rfl

@[simp] theorem State.setData_regs (s : State) (m : Memory) : (s.setData m).regs = s.regs := rfl
@[simp] theorem State.setData_pc (s : State) (m : Memory) : (s.setData m).pc = s.pc := rfl
@[simp] theorem State.setData_code (s : State) (m : Memory) : (s.setData m).code = s.code := rfl
@[simp] theorem State.setData_data (s : State) (m : Memory) : (s.setData m).data = m := rfl
@[simp] theorem State.setData_loops (s : State) (m : Memory) : (s.setData m).loops = s.loops := rfl
@[simp] theorem State.setData_phase (s : State) (m : Memory) : (s.setData m).phase = s.phase := rfl
@[simp] theorem State.setData_ir (s : State) (m : Memory) : (s.setData m).ir = s.ir := rfl
@[simp] theorem State.setData_dec (s : State) (m : Memory) : (s.setData m).dec = s.dec := rfl
@[simp] theorem State.setData_opnd (s : State) (m : Memory) : (s.setData m).opnd = s.opnd := rfl
@[simp] theorem State.setData_halt (s : State) (m : Memory) : (s.setData m).halt = s.halt := rfl
@[simp] theorem State.readReg_setData (s : State) (m : Memory) (r : RegIdx) : (s.setData m).readReg r = s.readReg r := rfl

@[simp] theorem State.setLoops_regs (s : State) (c : Counters) : (s.setLoops c).regs = s.regs := rfl
@[simp] theorem State.setLoops_pc (s : State) (c : Counters) : (s.setLoops c).pc = s.pc := rfl
@[simp] theorem State.setLoops_code (s : State) (c : Counters) : (s.setLoops c).code = s.code := rfl
@[simp] theorem State.setLoops_data (s : State) (c : Counters) : (s.setLoops c).data = s.data := rfl
@[simp] theorem State.setLoops_loops (s : State) (c : Counters) : (s.setLoops c).loops = c := rfl
@[simp] theorem State.setLoops_phase (s : State) (c : Counters) : (s.setLoops c).phase = s.phase := rfl
@[simp] theorem State.setLoops_ir (s : State) (c : Counters) : (s.setLoops c).ir = s.ir := rfl
@[simp] theorem State.setLoops_dec (s : State) (c : Counters) : (s.setLoops c).dec = s.dec := rfl
@[simp] theorem State.setLoops_opnd (s : State) (c : Counters) : (s.setLoops c).opnd = s.opnd := rfl
@[simp] theorem State.setLoops_halt (s : State) (c : Counters) : (s.setLoops c).halt = s.halt := rfl
@[simp] theorem State.readReg_setLoops (s : State) (c : Counters) (r : RegIdx) : (s.setLoops c).readReg r = s.readReg r := rfl

@[simp] theorem State.setPhase_regs (s : State) (p : Phase) : (s.setPhase p).regs = s.regs := rfl
@[simp] theorem State.setPhase_pc (s : State) (p : Phase) : (s.setPhase p).pc = s.pc := rfl
@[simp] theorem State.setPhase_code (s : State) (p : Phase) : (s.setPhase p).code = s.code := rfl
@[simp] theorem State.setPhase_data (s : State) (p : Phase) : (s.setPhase p).data = s.data := rfl
@[simp] theorem State.setPhase_loops (s : State) (p : Phase) : (s.setPhase p).loops = s.loops := rfl
@[simp] theorem State.setPhase_phase (s : State) (p : Phase) : (s.setPhase p).phase = p := rfl
@[simp] theorem State.setPhase_ir (s : State) (p : Phase) : (s.setPhase p).ir = s.ir := rfl
@[simp] theorem State.setPhase_dec (s : State) (p : Phase) : (s.setPhase p).dec = s.dec := rfl
@[simp] theorem State.setPhase_opnd (s : State) (p : Phase) : (s.setPhase p).opnd = s.opnd := rfl
@[simp] theorem State.setPhase_halt (s : State) (p : Phase) : (s.setPhase p).halt = s.halt := rfl
@[simp] theorem State.readReg_setPhase (s : State) (p : Phase) (r : RegIdx) : (s.setPhase p).readReg r = s.readReg r := rfl

@[simp] theorem State.setIr_regs (s : State) (w : Word) : (s.setIr w).regs = s.regs := rfl
@[simp] theorem State.setIr_pc (s : State) (w : Word) : (s.setIr w).pc = s.pc := rfl
@[simp] theorem State.setIr_code (s : State) (w : Word) : (s.setIr w).code = s.code := rfl
@[simp] theorem State.setIr_data (s : State) (w : Word) : (s.setIr w).data = s.data := rfl
@[simp] theorem State.setIr_loops (s : State) (w : Word) : (s.setIr w).loops = s.loops := rfl
@[simp] theorem State.setIr_phase (s : State) (w : Word) : (s.setIr w).phase = s.phase := rfl
@[simp] theorem State.setIr_ir (s : State) (w : Word) : (s.setIr w).ir = w := rfl
@[simp] theorem State.setIr_dec (s : State) (w : Word) : (s.setIr w).dec = s.dec := rfl
@[simp] theorem State.setIr_opnd (s : State) (w : Word) : (s.setIr w).opnd = s.opnd := rfl
@[simp] theorem State.setIr_halt (s : State) (w : Word) : (s.setIr w).halt = s.halt := rfl
@[simp] theorem State.readReg_setIr (s : State) (w : Word) (r : RegIdx) : (s.setIr w).readReg r = s.readReg r := rfl

@[simp] theorem State.setDec_regs (s : State) (d : Option Decoded) : (s.setDec d).regs = s.regs := rfl
@[simp] theorem State.setDec_pc (s : State) (d : Option Decoded) : (s.setDec d).pc = s.pc := rfl
@[simp] theorem State.setDec_code (s : State) (d : Option Decoded) : (s.setDec d).code = s.code := rfl
@[simp] theorem State.setDec_data (s : State) (d : Option Decoded) : (s.setDec d).data = s.data := rfl
@[simp] theorem State.setDec_loops (s : State) (d : Option Decoded) : (s.setDec d).loops = s.loops := rfl
@[simp] theorem State.setDec_phase (s : State) (d : Option Decoded) : (s.setDec d).phase = s.phase := rfl
@[simp] theorem State.setDec_ir (s : State) (d : Option Decoded) : (s.setDec d).ir = s.ir := rfl
@[simp] theorem State.setDec_dec (s : State) (d : Option Decoded) : (s.setDec d).dec = d := rfl
@[simp] theorem State.setDec_opnd (s : State) (d : Option Decoded) : (s.setDec d).opnd = s.opnd := rfl
@[simp] theorem State.setDec_halt (s : State) (d : Option Decoded) : (s.setDec d).halt = s.halt := rfl
@[simp] theorem State.readReg_setDec (s : State) (d : Option Decoded) (r : RegIdx) : (s.setDec d).readReg r = s.readReg r := rfl

@[simp] theorem State.setOpnd_regs (s : State) (v : Word) : (s.setOpnd v).regs = s.regs := rfl
@[simp] theorem State.setOpnd_pc (s : State) (v : Word) : (s.setOpnd v).pc = s.pc := rfl
@[simp] theorem State.setOpnd_code (s : State) (v : Word) : (s.setOpnd v).code = s.code := rfl
@[simp] theorem State.setOpnd_data (s : State) (v : Word) : (s.setOpnd v).data = s.data := rfl
@[simp] theorem State.setOpnd_loops (s : State) (v : Word) : (s.setOpnd v).loops = s.loops := rfl
@[simp] theorem State.setOpnd_phase (s : State) (v : Word) : (s.setOpnd v).phase = s.phase := rfl
@[simp] theorem State.setOpnd_ir (s : State) (v : Word) : (s.setOpnd v).ir = s.ir := rfl
@[simp] theorem State.setOpnd_dec (s : State) (v : Word) : (s.setOpnd v).dec = s.dec := rfl
@[simp] theorem State.setOpnd_opnd (s : State) (v : Word) : (s.setOpnd v).opnd = v := rfl
@[simp] theorem State.setOpnd_halt (s : State) (v : Word) : (s.setOpnd v).halt = s.halt := rfl
@[simp] theorem State.readReg_setOpnd (s : State) (v : Word) (r : RegIdx) : (s.setOpnd v).readReg r = s.readReg r := rfl

@[simp] theorem State.setHalt_regs (s : State) (h : HaltRecord) : (s.setHalt h).regs = s.regs := rfl
@[simp] theorem State.setHalt_pc (s : State) (h : HaltRecord) : (s.setHalt h).pc = s.pc := rfl
@[simp] theorem State.setHalt_code (s : State) (h : HaltRecord) : (s.setHalt h).code = s.code := rfl
@[simp] theorem State.setHalt_data (s : State) (h : HaltRecord) : (s.setHalt h).data = s.data := rfl
@[simp] theorem State.setHalt_loops (s : State) (h : HaltRecord) : (s.setHalt h).loops = s.loops := rfl
@[simp] theorem State.setHalt_phase (s : State) (h : HaltRecord) : (s.setHalt h).phase = s.phase := rfl
@[simp] theorem State.setHalt_ir (s : State) (h : HaltRecord) : (s.setHalt h).ir = s.ir := rfl
@[simp] theorem State.setHalt_dec (s : State) (h : HaltRecord) : (s.setHalt h).dec = s.dec := rfl
@[simp] theorem State.setHalt_opnd (s : State) (h : HaltRecord) : (s.setHalt h).opnd = s.opnd := rfl
@[simp] theorem State.setHalt_halt (s : State) (h : HaltRecord) : (s.setHalt h).halt = h := rfl
@[simp] theorem State.readReg_setHalt (s : State) (h : HaltRecord) (r : RegIdx) : (s.setHalt h).readReg r = s.readReg r := rfl

@[simp] theorem State.readReg_setReg_self (s : State) (i : RegIdx) (v : Word) : (s.setReg i v).readReg i = v := by
  simp [State.readReg]

theorem State.readReg_setReg_of_ne (s : State) {i r : RegIdx} (v : Word) (h : r ≠ i) :
    (s.setReg i v).readReg r = s.readReg r := by
  have hv : i.val ≠ r.val := fun e => h (Fin.ext e.symm)
  simp [State.readReg, Vector.getElem_set_ne, hv]

/-! What a halt writes (60_exceptions.md R264). -/

@[simp] theorem raiseHalt_regs (r : HaltReason) (a : Word) (s : State) : (raiseHalt r a s).regs = s.regs := rfl
@[simp] theorem raiseHalt_pc (r : HaltReason) (a : Word) (s : State) : (raiseHalt r a s).pc = s.pc := rfl
@[simp] theorem raiseHalt_code (r : HaltReason) (a : Word) (s : State) : (raiseHalt r a s).code = s.code := rfl
@[simp] theorem raiseHalt_data (r : HaltReason) (a : Word) (s : State) : (raiseHalt r a s).data = s.data := rfl
@[simp] theorem raiseHalt_loops (r : HaltReason) (a : Word) (s : State) : (raiseHalt r a s).loops = s.loops := rfl
@[simp] theorem raiseHalt_phase (r : HaltReason) (a : Word) (s : State) : (raiseHalt r a s).phase = .halted := rfl
@[simp] theorem raiseHalt_ir (r : HaltReason) (a : Word) (s : State) : (raiseHalt r a s).ir = s.ir := rfl
@[simp] theorem raiseHalt_dec (r : HaltReason) (a : Word) (s : State) : (raiseHalt r a s).dec = s.dec := rfl
@[simp] theorem raiseHalt_opnd (r : HaltReason) (a : Word) (s : State) : (raiseHalt r a s).opnd = s.opnd := rfl
@[simp] theorem raiseHalt_halt (r : HaltReason) (a : Word) (s : State) :
    (raiseHalt r a s).halt = { reason := r, pc := s.pc, instr := s.ir, addr := if r = .illegalAddress then a else 0 } := rfl
@[simp] theorem raiseHalt_readReg (r : HaltReason) (a : Word) (s : State) (i : RegIdx) :
    (raiseHalt r a s).readReg i = s.readReg i := rfl

end Sys2Proof.Machine
end

