-- ==== Sys2Proof/Laws/Ops.lean ====
section
/-! SUPPORT. One lemma per shared operation that says everything it can do; later proofs cite these instead of unfolding
the operation. -/

namespace Sys2Proof.Machine

/-! ### Data accesses -/

theorem memRead_of_addrOK {a : Word} (s : State) (h : addrOK a = true) :
    memRead a s = .ok (readWord s.data (wordIndex a)) := by
  simp [memRead, h]

theorem memRead_of_not_addrOK {a : Word} (s : State) (h : addrOK a = false) :
    memRead a s = .error (raiseHalt .illegalAddress a s) := by
  simp [memRead, h]

theorem memWrite_of_addrOK {a : Word} (v : Word) (s : State) (h : addrOK a = true) :
    memWrite a v s = .ok (s.setData (writeWord s.data (wordIndex a) v)) := by
  simp [memWrite, h]

theorem memWrite_of_not_addrOK {a : Word} (v : Word) (s : State) (h : addrOK a = false) :
    memWrite a v s = .error (raiseHalt .illegalAddress a s) := by
  simp [memWrite, h]

theorem moveToMem_of_addrOK {rl : RegIdx} (v : Word) (s : State) (h : addrOK (storeAddress rl s) = true) :
    moveToMem rl v s =
      .ok { state := s.setData (writeWord s.data (wordIndex (storeAddress rl s)) v), jumped := false } := by
  simp [moveToMem, memWrite_of_addrOK v s h]

theorem moveToMem_of_not_addrOK {rl : RegIdx} (v : Word) (s : State) (h : addrOK (storeAddress rl s) = false) :
    moveToMem rl v s = .error (raiseHalt .illegalAddress (storeAddress rl s) s) := by
  simp [moveToMem, memWrite_of_not_addrOK v s h]

/-! ### FETCH_OPERANDS -/

/-- The operand FETCH_OPERANDS latches, where it completes. -/
def latchedOperand (right : RightOperand) (s : State) : Word :=
  match right with
  | .imm rf => sext16 rf
  | .memAtReg rs => readWord s.data (wordIndex (s.readReg rs))
  | .reg _ => s.opnd
  | .absent => s.opnd

/-- FETCH_OPERANDS completes, writing the latch and the phase, or is a load that halts ILLEGAL_ADDRESS. -/
theorem fetchOperands_cases (right : RightOperand) (s : State) :
    fetchOperands right s = .ok ((s.setOpnd (latchedOperand right s)).setPhase .executeInstr) ∨
      ∃ rs, right = .memAtReg rs ∧ addrOK (s.readReg rs) = false ∧
        fetchOperands right s = .error (raiseHalt .illegalAddress (s.readReg rs) s) := by
  cases right with
  | imm rf => exact .inl rfl
  | reg rs => exact .inl rfl
  | absent => exact .inl rfl
  | memAtReg rs =>
    cases h : addrOK (s.readReg rs) with
    | true => exact .inl (by simp [fetchOperands, memRead_of_addrOK s h, latchedOperand])
    | false => exact .inr ⟨rs, rfl, h, by simp [fetchOperands, memRead_of_not_addrOK s h]⟩

/-! ### EXECUTE_INSTR -/

/-- What an instruction's effect can do: write one register, write one data word, jump, do nothing, or halt on a store's
address (10_state.md R33). -/
theorem effectOf_cases (i : Instr) (s : State) :
    (∃ rl v, effectOf i s = .ok { state := s.setReg rl v, jumped := false }) ∨
    (∃ a v, addrOK a = true ∧
      effectOf i s = .ok { state := s.setData (writeWord s.data (wordIndex a) v), jumped := false }) ∨
    (∃ v, (recordOf i).cat = 7 ∧ effectOf i s = .ok { state := s.setPc v, jumped := true }) ∨
    effectOf i s = .ok { state := s, jumped := false } ∨
    (∃ a, addrOK a = false ∧ effectOf i s = .error (raiseHalt .illegalAddress a s)) := by
  have hstore (rl : RegIdx) (v : Word) :
      (∃ a v', addrOK a = true ∧
        moveToMem rl v s = .ok { state := s.setData (writeWord s.data (wordIndex a) v'), jumped := false }) ∨
      (∃ a, addrOK a = false ∧ moveToMem rl v s = .error (raiseHalt .illegalAddress a s)) := by
    cases h : addrOK (storeAddress rl s) with
    | true => exact .inl ⟨_, v, h, by simp [moveToMem, memWrite_of_addrOK v s h]⟩
    | false => exact .inr ⟨_, h, by simp [moveToMem, memWrite_of_not_addrOK v s h]⟩
  have hbranch (p : Word → Word → Bool) (rl : RegIdx) :
      branchIf p rl s = .ok { state := s.setPc (s.pc + s.opnd), jumped := true } ∨
      branchIf p rl s = .ok { state := s, jumped := false } := by
    unfold branchIf
    split <;> simp
  cases i
  case movsti rl imm => exact (hstore rl s.opnd).elim (fun h => .inr (.inl h)) (fun h => .inr (.inr (.inr (.inr h))))
  case movst rl rs => exact (hstore rl (s.readReg rs)).elim (fun h => .inr (.inl h)) (fun h => .inr (.inr (.inr (.inr h))))
  case jr rl => exact .inr (.inr (.inl ⟨_, rfl, rfl⟩))
  case beq rl d => exact (hbranch condEq rl).elim (fun h => .inr (.inr (.inl ⟨_, rfl, h⟩))) (fun h => .inr (.inr (.inr (.inl h))))
  case bne rl d => exact (hbranch condNe rl).elim (fun h => .inr (.inr (.inl ⟨_, rfl, h⟩))) (fun h => .inr (.inr (.inr (.inl h))))
  case blt rl d => exact (hbranch condLt rl).elim (fun h => .inr (.inr (.inl ⟨_, rfl, h⟩))) (fun h => .inr (.inr (.inr (.inl h))))
  case bgt rl d => exact (hbranch condGt rl).elim (fun h => .inr (.inr (.inl ⟨_, rfl, h⟩))) (fun h => .inr (.inr (.inr (.inl h))))
  case ble rl d => exact (hbranch condLe rl).elim (fun h => .inr (.inr (.inl ⟨_, rfl, h⟩))) (fun h => .inr (.inr (.inr (.inl h))))
  case bge rl d => exact (hbranch condGe rl).elim (fun h => .inr (.inr (.inl ⟨_, rfl, h⟩))) (fun h => .inr (.inr (.inr (.inl h))))
  all_goals exact .inl ⟨_, _, rfl⟩

/-- EXECUTE_INSTR completes with the effect and the pc update, or halts with what the effect halted with (D3). -/
theorem executeInstr_ok {cat : BitVec 3} {eff : State → Except State Effect} {s : State} {e : Effect}
    (h : eff s = .ok e) : executeInstr cat eff s = .ok ((advancePc cat e).setPhase .writeBack) := by
  simp [executeInstr, h]

theorem executeInstr_error {cat : BitVec 3} {eff : State → Except State Effect} {s t : State}
    (h : eff s = .error t) : executeInstr cat eff s = .error t := by
  simp [executeInstr, h]

theorem advancePc_not_jumped (cat : BitVec 3) (s : State) :
    advancePc cat { state := s, jumped := false } = s.setPc (s.pc + 1) := by
  simp [advancePc]

theorem advancePc_jumped (s : State) : advancePc 7 { state := s, jumped := true } = s := by
  simp [advancePc]

/-! ### A whole instruction -/

/-- Every meaning is the run of the instruction's record with the instruction's effect. -/
theorem exec_eq_runInstr (i : Instr) (s : State) : exec i s = runInstr (recordOf i) (effectOf i) s := by
  cases i <;> rfl

theorem runInstr_of_latched {d : Decoded} {eff : State → Except State Effect} {s t : State}
    (h : fetchOperands d.right s = .ok t) :
    runInstr d eff s =
      match executeInstr d.cat eff t with
      | .error e => .next e
      | .ok u => .next (writeBack u) := by
  cases he : executeInstr d.cat eff t <;> simp [runInstr, h, he]

theorem runInstr_of_load_halt {d : Decoded} {eff : State → Except State Effect} {s h : State}
    (hf : fetchOperands d.right s = .error h) : runInstr d eff s = .next h := by
  simp [runInstr, hf]

/-- Every meaning answers a next state: no instruction of this core stops (60_exceptions.md R264, R271). -/
theorem exec_answers_next (i : Instr) (s : State) : ∃ t, exec i s = .next t := by
  rw [exec_eq_runInstr]
  unfold runInstr
  split
  · exact ⟨_, rfl⟩
  · split <;> exact ⟨_, rfl⟩

/-! ### Loop detection -/

/-- CALCULATE_EA counts the visit, and then goes on or halts INFINITE_LOOP (R236). -/
theorem calculateEa_cases (s : State) :
    (loopCount s.loops s.pc.toNat < Config.loopThreshold ∧
      calculateEa s = .ok ((s.setLoops (countVisit s.loops s.pc.toNat)).setPhase .fetchOperands)) ∨
    (Config.loopThreshold ≤ loopCount s.loops s.pc.toNat ∧
      calculateEa s = .error (raiseHalt .infiniteLoop 0 (s.setLoops (countVisit s.loops s.pc.toNat)))) := by
  unfold calculateEa
  rw [loopCount_countVisit_self]
  by_cases h : loopCount s.loops s.pc.toNat < Config.loopThreshold
  · exact .inl ⟨h, by rw [if_neg (by omega)]⟩
  · exact .inr ⟨by omega, by rw [if_pos (by omega)]⟩

/-! ### The comparisons of the branches in core terms (00_scope.md R12) -/

theorem signed_eq_toInt (v : Word) : signed v = v.toInt := by
  have := v.isLt
  rw [signed, BitVec.toInt_eq_toNat_cond]
  split <;> split <;> omega

end Sys2Proof.Machine
end

