-- ==== Sys2Proof/Laws/Branch.lean ====
section
/-! SUPPORT. Everything a conditional branch does, said once. -/

namespace Sys2Proof.Machine

/-- A conditional branch latches its displacement and sets `pc`, and does nothing else. -/
theorem runInstr_branchIf {d : Decoded} {p : Word → Word → Bool} {rl : RegIdx} {disp : BitVec 6} (hc : d.cat = 7)
    (hr : d.right = .imm disp) (s : State) :
    runInstr d (branchIf p rl) s = .next { s with
      opnd := sext16 disp
      pc := if p (s.readReg rl) (s.readReg 0) then s.pc + sext16 disp else s.pc + 1
      phase := .fetchInstr } := by
  obtain ⟨c, t, r, right⟩ := d
  subst hc hr
  have hf : fetchOperands (.imm disp) s = .ok ((s.setOpnd (sext16 disp)).setPhase .executeInstr) := rfl
  rw [runInstr_of_latched hf]
  cases h : p (s.readReg rl) (s.readReg 0)
  · have he : branchIf p rl ((s.setOpnd (sext16 disp)).setPhase .executeInstr) =
        .ok { state := (s.setOpnd (sext16 disp)).setPhase .executeInstr, jumped := false } := if_neg (by simp [h])
    simp only [executeInstr_ok he, advancePc_not_jumped]
    rfl
  · have he : branchIf p rl ((s.setOpnd (sext16 disp)).setPhase .executeInstr) =
        .ok { state := ((s.setOpnd (sext16 disp)).setPhase .executeInstr).setPc (s.pc + sext16 disp), jumped := true } :=
      if_pos (by simp [h])
    simp only [executeInstr_ok he, advancePc_jumped]
    rfl

end Sys2Proof.Machine
end

