-- ==== Sys2Proof/Laws/Decode.lean ====
section
/-! SUPPORT. The fields of a packed word, and the three views of an instruction: word, record, constructor. -/

namespace Sys2Proof

/-! ### A packed word gives its fields back (30_encoding.md R102, R103) -/

@[simp] theorem fieldCat_packWord (c t : BitVec 3) (rl : RegIdx) (rf : BitVec 6) : fieldCat (packWord c t rl rf) = c := by
  apply BitVec.eq_of_getLsbD_eq
  intro i hi
  simp only [fieldCat, packWord, BitVec.getLsbD_extractLsb', BitVec.getLsbD_append]
  have h1 : ¬ 13 + i < 6 := by omega
  have h2 : ¬ 13 + i - 6 < 4 := by omega
  have h3 : ¬ 13 + i - 6 - 4 < 3 := by omega
  have h4 : 13 + i - 6 - 4 - 3 = i := by omega
  simp [h1, h2, h3, h4, hi]

@[simp] theorem fieldTyp_packWord (c t : BitVec 3) (rl : RegIdx) (rf : BitVec 6) : fieldTyp (packWord c t rl rf) = t := by
  apply BitVec.eq_of_getLsbD_eq
  intro i hi
  simp only [fieldTyp, packWord, BitVec.getLsbD_extractLsb', BitVec.getLsbD_append]
  have h1 : ¬ 10 + i < 6 := by omega
  have h2 : ¬ 10 + i - 6 < 4 := by omega
  have h3 : 10 + i - 6 - 4 < 3 := by omega
  have h4 : 10 + i - 6 - 4 = i := by omega
  simp [h1, h2, h4, hi]

@[simp] theorem fieldRl_packWord (c t : BitVec 3) (rl : RegIdx) (rf : BitVec 6) : fieldRl (packWord c t rl rf) = rl := by
  have : (packWord c t rl rf).extractLsb' 6 4 = BitVec.ofFin rl := by
    apply BitVec.eq_of_getLsbD_eq
    intro i hi
    simp only [packWord, BitVec.getLsbD_extractLsb', BitVec.getLsbD_append]
    have h1 : ¬ 6 + i < 6 := by omega
    have h2 : 6 + i - 6 = i := by omega
    simp [h1, h2, hi]
  simp [fieldRl, this]

@[simp] theorem fieldRf_packWord (c t : BitVec 3) (rl : RegIdx) (rf : BitVec 6) : fieldRf (packWord c t rl rf) = rf := by
  apply BitVec.eq_of_getLsbD_eq
  intro i hi
  simp only [fieldRf, packWord, BitVec.getLsbD_extractLsb', BitVec.getLsbD_append]
  simp [hi]

/-- The right register index is the upper four bits of the right field (R105). -/
theorem fieldRs_eq_fieldRf (w : Word) : fieldRs w = ((fieldRf w).extractLsb' 2 4).toFin := by
  have : w.extractLsb' 2 4 = (fieldRf w).extractLsb' 2 4 := by
    apply BitVec.eq_of_getLsbD_eq
    intro i hi
    simp [fieldRf, hi]
  simp [fieldRs, this]

@[simp] theorem fieldRs_packWord_field (c t : BitVec 3) (rl rs : RegIdx) :
    fieldRs (packWord c t rl ((BitVec.ofFin rs : BitVec 4) ++ 0#2)) = rs := by
  rw [fieldRs_eq_fieldRf, fieldRf_packWord]
  have : ((BitVec.ofFin rs : BitVec 4) ++ 0#2).extractLsb' 2 4 = BitVec.ofFin rs := by
    apply BitVec.eq_of_getLsbD_eq
    intro i hi
    have h : ¬ 2 + i < 2 := by omega
    simp only [BitVec.getLsbD_extractLsb', BitVec.getLsbD_append, h, hi, if_false, decide_true, Bool.true_and,
      Nat.add_sub_cancel_left]
  rw [this]

/-! ### Record and constructor -/

theorem toInstr_recordOf (i : Instr) : (recordOf i).toInstr = some i := by
  cases i <;> rfl

/-- Three bits, by cases. -/
theorem bitVec3_cases (c : BitVec 3) : c = 0 ∨ c = 1 ∨ c = 2 ∨ c = 3 ∨ c = 4 ∨ c = 5 ∨ c = 6 ∨ c = 7 := by
  revert c; decide

/-- A record names an instruction exactly when it is that instruction's record. -/
theorem toInstr_eq_some_iff (d : Decoded) (i : Instr) : d.toInstr = some i ↔ recordOf i = d := by
  constructor
  · intro h
    obtain ⟨c, t, rl, right⟩ := d
    rcases bitVec3_cases c with rfl | rfl | rfl | rfl | rfl | rfl | rfl | rfl <;>
      rcases bitVec3_cases t with rfl | rfl | rfl | rfl | rfl | rfl | rfl | rfl <;>
        cases right <;> first | (cases h; rfl) | cases h
  · rintro rfl
    exact toInstr_recordOf i

/-- Every record the decoder gives names an instruction (45_control_unit.md R242). -/
theorem toInstr_of_rightForm {c t : BitVec 3} {rf : BitVec 6} {rs rl : RegIdx} {right : RightOperand}
    (h : rightForm c t rf rs = some right) : ∃ i, (Decoded.mk c t rl right).toInstr = some i := by
  rcases bitVec3_cases c with rfl | rfl | rfl | rfl | rfl | rfl | rfl | rfl <;>
    rcases bitVec3_cases t with rfl | rfl | rfl | rfl | rfl | rfl | rfl | rfl <;>
      first | (cases h; exact ⟨_, rfl⟩) | cases h

/-- `decode` gives an instruction exactly when the decoder gives its record. -/
theorem decode_eq_ok_iff (w : Word) (i : Instr) : decode w = .ok i ↔ decodeRecord w = .ok (recordOf i) := by
  unfold decode
  constructor
  · intro h
    split at h
    · cases h
    · rename_i d hd
      split at h
      · rename_i j hj
        cases h
        rw [hd, (toInstr_eq_some_iff d i).1 hj]
      · cases h
  · intro h
    rw [h]
    simp [toInstr_recordOf]

/-- `decode` refuses a word exactly when the decoder does, and by the same name. -/
theorem decode_error_iff (w : Word) (e : DecodeError) : decode w = .error e ↔ decodeRecord w = .error e := by
  unfold decode
  split
  · rename_i e' he
    rw [he]
    simp
  · rename_i d hd
    have hi : ∃ i, d.toInstr = some i := by
      unfold decodeRecord at hd
      split at hd
      · rename_i right hr
        cases hd
        exact toInstr_of_rightForm hr
      · cases hd
    obtain ⟨i, hi⟩ := hi
    simp [hi, hd]

end Sys2Proof
end

