-- ==== Sys2Proof/Laws/HostIo.lean ====
section
/-! SUPPORT. What the loaders of the launch do, each said once. -/

namespace Sys2Proof.Machine

/-! ### Loading keeps the canonical form -/

theorem loadBytes_wf (bs : List Byte) {k : Nat} {m : Memory} (hk : k + bs.length ≤ Config.memoryBytes)
    (hm : m.wf = true) : (loadBytes k bs m).wf = true := by
  induction bs generalizing k m with
  | nil => exact hm
  | cons b bs ih =>
    simp only [List.length_cons] at hk
    exact ih (by omega) (writeByte_wf b (by omega) hm)

theorem loadWords_wf (ws : List Word) {k : Nat} {m : Memory} (hk : k + ws.length ≤ Config.dataWords)
    (hm : m.wf = true) : (loadWords k ws m).wf = true := by
  induction ws generalizing k m with
  | nil => exact hm
  | cons w ws ih =>
    simp only [List.length_cons] at hk
    exact ih (by omega) (writeWord_wf w (by omega) hm)

/-! ### What a loaded table reads as -/

theorem readByte_loadBytes (bs : List Byte) (k : Nat) (m : Memory) (a : Nat) :
    readByte (loadBytes k bs m) a = if k ≤ a ∧ a < k + bs.length then (bs[a - k]?).getD 0 else readByte m a := by
  induction bs generalizing k m with
  | nil => simp [loadBytes]
  | cons b bs ih =>
    rw [loadBytes, ih]
    by_cases h1 : a = k
    · subst h1
      simp
    · rw [readByte_writeByte_of_ne _ _ h1]
      by_cases h2 : k + 1 ≤ a ∧ a < k + 1 + bs.length
      · obtain ⟨c, rfl⟩ : ∃ c, a = k + 1 + c := ⟨a - (k + 1), by omega⟩
        rw [if_pos h2, if_pos (by simp; omega), show k + 1 + c - (k + 1) = c by omega, show k + 1 + c - k = c + 1 by omega,
          List.getElem?_cons_succ]
      · rw [if_neg h2, if_neg (by simp; omega)]

theorem readWord_loadWords (ws : List Word) (k : Nat) (m : Memory) (a : Nat) :
    readWord (loadWords k ws m) a = if k ≤ a ∧ a < k + ws.length then (ws[a - k]?).getD 0 else readWord m a := by
  induction ws generalizing k m with
  | nil => simp [loadWords]
  | cons w ws ih =>
    rw [loadWords, ih]
    by_cases h1 : a = k
    · subst h1
      simp [readWord_writeWord_self]
    · rw [readWord_writeWord_of_ne _ _ h1]
      by_cases h2 : k + 1 ≤ a ∧ a < k + 1 + ws.length
      · obtain ⟨c, rfl⟩ : ∃ c, a = k + 1 + c := ⟨a - (k + 1), by omega⟩
        rw [if_pos h2, if_pos (by simp; omega), show k + 1 + c - (k + 1) = c by omega, show k + 1 + c - k = c + 1 by omega,
          List.getElem?_cons_succ]
      · rw [if_neg h2, if_neg (by simp; omega)]

/-! ### Digits -/

/-- A digit the report line writes is one the data loader reads back. -/
theorem hexDigit_hexChar (d : BitVec 4) : hexDigit (hexChar d) = some d := by
  revert d
  decide

/-- A word is its four digits. -/
theorem word_of_digits (w : Word) :
    ((highByte w).extractLsb' 4 4 ++ (highByte w).extractLsb' 0 4 ++ (lowByte w).extractLsb' 4 4 ++
      (lowByte w).extractLsb' 0 4 : BitVec (4 + 4 + 4 + 4)) = w := by
  apply BitVec.eq_of_getLsbD_eq
  intro i hi
  simp only [highByte, lowByte, BitVec.getLsbD_append, BitVec.getLsbD_extractLsb']
  interval_cases i <;> simp

end Sys2Proof.Machine
end

