-- ==== Sys2Proof/Laws/PerInstr.lean ====
section
/-! SUPPORT. What holds of every instruction as syntax, one lemma per constructor. -/

namespace Sys2Proof.Laws.RecordReadsBack

/-- The record of an instruction is one the decoder can give, and it names the instruction (R49, R242). -/
def Statement (i : Instr) : Prop := (recordOf i).wellFormed = true ∧ (recordOf i).toInstr = some i

theorem addi (rl : RegIdx) (imm : BitVec 6) : Statement (.addi rl imm) := ⟨rfl, rfl⟩
theorem add (rl rs : RegIdx) : Statement (.add rl rs) := ⟨rfl, rfl⟩
theorem subi (rl : RegIdx) (imm : BitVec 6) : Statement (.subi rl imm) := ⟨rfl, rfl⟩
theorem sub (rl rs : RegIdx) : Statement (.sub rl rs) := ⟨rfl, rfl⟩
theorem andi (rl : RegIdx) (imm : BitVec 6) : Statement (.andi rl imm) := ⟨rfl, rfl⟩
theorem and (rl rs : RegIdx) : Statement (.and rl rs) := ⟨rfl, rfl⟩
theorem ori (rl : RegIdx) (imm : BitVec 6) : Statement (.ori rl imm) := ⟨rfl, rfl⟩
theorem or (rl rs : RegIdx) : Statement (.or rl rs) := ⟨rfl, rfl⟩
theorem xori (rl : RegIdx) (imm : BitVec 6) : Statement (.xori rl imm) := ⟨rfl, rfl⟩
theorem xor (rl rs : RegIdx) : Statement (.xor rl rs) := ⟨rfl, rfl⟩
theorem movi (rl : RegIdx) (imm : BitVec 6) : Statement (.movi rl imm) := ⟨rfl, rfl⟩
theorem movld (rl rs : RegIdx) : Statement (.movld rl rs) := ⟨rfl, rfl⟩
theorem movsti (rl : RegIdx) (imm : BitVec 6) : Statement (.movsti rl imm) := ⟨rfl, rfl⟩
theorem movst (rl rs : RegIdx) : Statement (.movst rl rs) := ⟨rfl, rfl⟩
theorem shr (rl : RegIdx) : Statement (.shr rl) := ⟨rfl, rfl⟩
theorem shl (rl : RegIdx) : Statement (.shl rl) := ⟨rfl, rfl⟩
theorem jr (rl : RegIdx) : Statement (.jr rl) := ⟨rfl, rfl⟩
theorem beq (rl : RegIdx) (disp : BitVec 6) : Statement (.beq rl disp) := ⟨rfl, rfl⟩
theorem bne (rl : RegIdx) (disp : BitVec 6) : Statement (.bne rl disp) := ⟨rfl, rfl⟩
theorem blt (rl : RegIdx) (disp : BitVec 6) : Statement (.blt rl disp) := ⟨rfl, rfl⟩
theorem bgt (rl : RegIdx) (disp : BitVec 6) : Statement (.bgt rl disp) := ⟨rfl, rfl⟩
theorem ble (rl : RegIdx) (disp : BitVec 6) : Statement (.ble rl disp) := ⟨rfl, rfl⟩
theorem bge (rl : RegIdx) (disp : BitVec 6) : Statement (.bge rl disp) := ⟨rfl, rfl⟩

end Sys2Proof.Laws.RecordReadsBack
end

