-- ==== Sys2Proof/Laws/Step.lean ====
section
/-! SUPPORT. Inversion: everything an instruction, a phase step and a step can do, each said once. -/

namespace Sys2Proof.Machine

/-- The state FETCH_OPERANDS hands to EXECUTE_INSTR where it completes. -/
def latchedState (i : Instr) (s : State) : State :=
  (s.setOpnd (latchedOperand (recordOf i).right s)).setPhase .executeInstr

/-! ### The fields of the states between phases -/

@[simp] theorem fetchInstr_regs (s : State) : (fetchInstr s).regs = s.regs := rfl
@[simp] theorem fetchInstr_pc (s : State) : (fetchInstr s).pc = s.pc := rfl
@[simp] theorem fetchInstr_code (s : State) : (fetchInstr s).code = s.code := rfl
@[simp] theorem fetchInstr_data (s : State) : (fetchInstr s).data = s.data := rfl
@[simp] theorem fetchInstr_loops (s : State) : (fetchInstr s).loops = s.loops := rfl
@[simp] theorem fetchInstr_phase (s : State) : (fetchInstr s).phase = .decodeInstr := rfl
@[simp] theorem fetchInstr_ir (s : State) : (fetchInstr s).ir = codeRead s.code s.pc := rfl
@[simp] theorem fetchInstr_dec (s : State) : (fetchInstr s).dec = s.dec := rfl
@[simp] theorem fetchInstr_opnd (s : State) : (fetchInstr s).opnd = s.opnd := rfl
@[simp] theorem fetchInstr_halt (s : State) : (fetchInstr s).halt = s.halt := rfl
@[simp] theorem fetchInstr_readReg (s : State) (r : RegIdx) : (fetchInstr s).readReg r = s.readReg r := rfl

@[simp] theorem writeBack_regs (s : State) : (writeBack s).regs = s.regs := rfl
@[simp] theorem writeBack_pc (s : State) : (writeBack s).pc = s.pc := rfl
@[simp] theorem writeBack_code (s : State) : (writeBack s).code = s.code := rfl
@[simp] theorem writeBack_data (s : State) : (writeBack s).data = s.data := rfl
@[simp] theorem writeBack_loops (s : State) : (writeBack s).loops = s.loops := rfl
@[simp] theorem writeBack_phase (s : State) : (writeBack s).phase = .fetchInstr := rfl
@[simp] theorem writeBack_ir (s : State) : (writeBack s).ir = s.ir := rfl
@[simp] theorem writeBack_dec (s : State) : (writeBack s).dec = s.dec := rfl
@[simp] theorem writeBack_opnd (s : State) : (writeBack s).opnd = s.opnd := rfl
@[simp] theorem writeBack_halt (s : State) : (writeBack s).halt = s.halt := rfl
@[simp] theorem writeBack_readReg (s : State) (r : RegIdx) : (writeBack s).readReg r = s.readReg r := rfl

@[simp] theorem prepared_regs (s : State) (i : Instr) : (s.prepared i).regs = s.regs := rfl
@[simp] theorem prepared_pc (s : State) (i : Instr) : (s.prepared i).pc = s.pc := rfl
@[simp] theorem prepared_code (s : State) (i : Instr) : (s.prepared i).code = s.code := rfl
@[simp] theorem prepared_data (s : State) (i : Instr) : (s.prepared i).data = s.data := rfl
@[simp] theorem prepared_loops (s : State) (i : Instr) : (s.prepared i).loops = countVisit s.loops s.pc.toNat := rfl
@[simp] theorem prepared_phase (s : State) (i : Instr) : (s.prepared i).phase = .fetchOperands := rfl
@[simp] theorem prepared_ir (s : State) (i : Instr) : (s.prepared i).ir = codeRead s.code s.pc := rfl
@[simp] theorem prepared_dec (s : State) (i : Instr) : (s.prepared i).dec = some (recordOf i) := rfl
@[simp] theorem prepared_opnd (s : State) (i : Instr) : (s.prepared i).opnd = s.opnd := rfl
@[simp] theorem prepared_halt (s : State) (i : Instr) : (s.prepared i).halt = s.halt := rfl
@[simp] theorem prepared_readReg (s : State) (i : Instr) (r : RegIdx) : (s.prepared i).readReg r = s.readReg r := rfl

@[simp] theorem latchedState_regs (i : Instr) (s : State) : (latchedState i s).regs = s.regs := rfl
@[simp] theorem latchedState_pc (i : Instr) (s : State) : (latchedState i s).pc = s.pc := rfl
@[simp] theorem latchedState_code (i : Instr) (s : State) : (latchedState i s).code = s.code := rfl
@[simp] theorem latchedState_data (i : Instr) (s : State) : (latchedState i s).data = s.data := rfl
@[simp] theorem latchedState_loops (i : Instr) (s : State) : (latchedState i s).loops = s.loops := rfl
@[simp] theorem latchedState_phase (i : Instr) (s : State) : (latchedState i s).phase = .executeInstr := rfl
@[simp] theorem latchedState_ir (i : Instr) (s : State) : (latchedState i s).ir = s.ir := rfl
@[simp] theorem latchedState_dec (i : Instr) (s : State) : (latchedState i s).dec = s.dec := rfl
@[simp] theorem latchedState_opnd (i : Instr) (s : State) : (latchedState i s).opnd = latchedOperand (recordOf i).right s := rfl
@[simp] theorem latchedState_halt (i : Instr) (s : State) : (latchedState i s).halt = s.halt := rfl
@[simp] theorem latchedState_readReg (i : Instr) (s : State) (r : RegIdx) : (latchedState i s).readReg r = s.readReg r := rfl

/-! ### Inversion -/

/-- Everything a meaning can answer: a load or a store halts ILLEGAL_ADDRESS, or the instruction completes by writing one
register, one data word, `pc` alone, or nothing but the `pc` update. -/
theorem exec_cases (i : Instr) (s : State) :
    (∃ rs, (recordOf i).right = .memAtReg rs ∧ addrOK (s.readReg rs) = false ∧
      exec i s = .next (raiseHalt .illegalAddress (s.readReg rs) s)) ∨
    (∃ a, addrOK a = false ∧ effectOf i (latchedState i s) = .error (raiseHalt .illegalAddress a (latchedState i s)) ∧
      exec i s = .next (raiseHalt .illegalAddress a (latchedState i s))) ∨
    (∃ u, (recordOf i).cat = 7 ∧ effectOf i (latchedState i s) = .ok { state := (latchedState i s).setPc u, jumped := true } ∧
      exec i s = .next (((latchedState i s).setPc u).setPhase .fetchInstr)) ∨
    (∃ t, effectOf i (latchedState i s) = .ok { state := t, jumped := false } ∧
      ((∃ rl v, t = (latchedState i s).setReg rl v) ∨
        (∃ a v, addrOK a = true ∧ t = (latchedState i s).setData (writeWord (latchedState i s).data (wordIndex a) v)) ∨
        t = latchedState i s) ∧
      exec i s = .next ((t.setPc (s.pc + 1)).setPhase .fetchInstr)) := by
  rw [exec_eq_runInstr]
  rcases fetchOperands_cases (recordOf i).right s with hf | ⟨rs, hr, ha, hf⟩
  · have hrun := runInstr_of_latched (eff := effectOf i) hf
    change runInstr (recordOf i) (effectOf i) s = match executeInstr (recordOf i).cat (effectOf i) (latchedState i s) with
      | .error e => .next e
      | .ok u => .next (writeBack u) at hrun
    have hdone {t : State} (he : effectOf i (latchedState i s) = .ok { state := t, jumped := false })
        (hpc : t.pc = s.pc) :
        runInstr (recordOf i) (effectOf i) s = .next ((t.setPc (s.pc + 1)).setPhase .fetchInstr) := by
      rw [hrun, executeInstr_ok he, advancePc_not_jumped, hpc]
      rfl
    rcases effectOf_cases i (latchedState i s) with ⟨rl, v, he⟩ | ⟨a, v, ha, he⟩ | ⟨u, hc, he⟩ | he | ⟨a, ha, he⟩
    · exact .inr (.inr (.inr ⟨_, he, .inl ⟨rl, v, rfl⟩, hdone he rfl⟩))
    · exact .inr (.inr (.inr ⟨_, he, .inr (.inl ⟨a, v, ha, rfl⟩), hdone he rfl⟩))
    · refine .inr (.inr (.inl ⟨u, hc, he, ?_⟩))
      rw [hrun, executeInstr_ok he, hc, advancePc_jumped]
      rfl
    · exact .inr (.inr (.inr ⟨_, he, .inr (.inr rfl), hdone he rfl⟩))
    · refine .inr (.inl ⟨a, ha, he, ?_⟩)
      rw [hrun, executeInstr_error he]
  · exact .inl ⟨rs, hr, ha, runInstr_of_load_halt hf⟩

theorem step_of_halted {s : State} (h : s.phase = .halted) : step s = .next s := by
  simp [step, stepInstr, h]

theorem stepPhase_of_halted {s : State} (h : s.phase = .halted) : stepPhase s = .next s := by
  simp [stepPhase, h]

/-- Everything a step at an instruction boundary can do (R246, R248): halt on an illegal word, halt on a visit past the
threshold, or run the decoded instruction. -/
theorem step_of_fetch {s : State} (h : s.phase = .fetchInstr) :
    (∃ e, decode (codeRead s.code s.pc) = .error e ∧ step s = .next (raiseHalt .illegalOpcode 0 (fetchInstr s))) ∨
    (∃ i, decode (codeRead s.code s.pc) = .ok i ∧ Config.loopThreshold ≤ loopCount s.loops s.pc.toNat ∧
      step s = .next (raiseHalt .infiniteLoop 0 ((s.prepared i).setPhase .calculateEa))) ∨
    (∃ i, decode (codeRead s.code s.pc) = .ok i ∧ loopCount s.loops s.pc.toNat < Config.loopThreshold ∧
      step s = exec i (s.prepared i)) := by
  simp only [step, stepInstr, h]
  cases hd : decode (codeRead s.code s.pc) with
  | error e =>
    refine .inl ⟨e, rfl, ?_⟩
    simp [fetchInstr, hd]
  | ok i =>
    rcases calculateEa_cases (((fetchInstr s).setDec (some (recordOf i))).setPhase .calculateEa) with ⟨hc, he⟩ | ⟨hc, he⟩
    · refine .inr (.inr ⟨i, rfl, hc, ?_⟩)
      simp only [fetchInstr, State.setPhase_ir, State.setIr_ir, hd]
      rw [show (s.setIr (codeRead s.code s.pc)).setPhase .decodeInstr = fetchInstr s from rfl, he]
      rfl
    · refine .inr (.inl ⟨i, rfl, hc, ?_⟩)
      simp only [fetchInstr, State.setPhase_ir, State.setIr_ir, hd]
      rw [show (s.setIr (codeRead s.code s.pc)).setPhase .decodeInstr = fetchInstr s from rfl, he]
      rfl

/-- A step in the middle of an instruction is the phases that are left of it. -/
theorem step_of_inside {s : State} (h : s.atBoundary = false) : step s = finishInstr 5 s := by
  unfold step stepInstr
  unfold State.atBoundary at h
  split
  · simp_all
  · simp_all
  · rfl

end Sys2Proof.Machine
end

