-- ==== Sys2Proof/Laws/Run.lean ====
section
/-! SUPPORT. Runs of many steps, of the folded machine and of the phase machine, one step at a time. -/

namespace Sys2Proof.Machine

/-- A run of any machine, one step at a time. -/
theorem coreRun_succ_of_next (M : Host.Core) {n : Nat} {s t : M.State} (h : M.step s = .next t) :
    M.run (n + 1) s = M.run n t := by
  simp [Host.Core.run, h]

theorem run_succ_of_next {n : Nat} {s t : State} (h : step s = .next t) :
    Host.Core.run core (n + 1) s = Host.Core.run core n t :=
  coreRun_succ_of_next core h

theorem runPhases_succ_of_next {n : Nat} {s t : State} (h : stepPhase s = .next t) :
    runPhases (n + 1) s = runPhases n t := by
  simp [runPhases, h]

theorem finishInstr_of_boundary {n : Nat} {s : State} (h : s.atBoundary = true) : finishInstr n s = .next s := by
  cases n <;> simp [finishInstr, h]

theorem finishInstr_succ_of_next {n : Nat} {s t : State} (hb : s.atBoundary = false) (h : stepPhase s = .next t) :
    finishInstr (n + 1) s = finishInstr n t := by
  simp [finishInstr, hb, h]

/-- Phases compose: after `m` phases, `n` more. -/
theorem runPhases_add {m n : Nat} {s t : State} (h : runPhases m s = .next t) :
    runPhases (m + n) s = runPhases n t := by
  induction m generalizing s with
  | zero =>
    cases h
    rw [Nat.zero_add]
  | succ m ih =>
    rw [Nat.add_right_comm]
    cases hs : stepPhase s with
    | next u =>
      rw [runPhases_succ_of_next hs] at h ⊢
      exact ih h
    | fault r => simp [runPhases, hs] at h
    | refused r => simp [runPhases, hs] at h

end Sys2Proof.Machine
end

