-- ==== Sys2Proof/Tests/Slice0.lean ====
section
/-! SUPPORT. Tests: expected values from spec/95_test_vectors.md, by the id of the vector, or written out from the encoding
table of 30_encoding.md R103, R108, R110. Then, for every statement with hypotheses, a concrete case that meets them. -/

namespace Sys2Proof.Tests

open Sys2Proof Sys2Proof.Machine

/-! ### Helpers -/

/-- Reset, with some registers and `pc` set. -/
def start (regs : List (RegIdx × Word)) (pc : Word) : State :=
  regs.foldl (fun s p => s.setReg p.1 p.2) (State.reset.setPc pc)

/-- A reading of the state an outcome goes on to. -/
def see {α : Type} (f : State → α) (o : Host.Outcome State Fault Refusal) : Option α :=
  match o with
  | .next t => some (f t)
  | .fault _ => none
  | .refused _ => none

/-- One step of a state with a word placed at its `pc`. -/
def run (w : Nat) (s : State) : Host.Outcome State Fault Refusal := step (s.withFetchWord 16 w)

/-- One register and `pc`. -/
def regPc (r : RegIdx) (t : State) : Word × Word := (t.readReg r, t.pc)

/-- One data word and `pc`. -/
def wordPc (a : Nat) (t : State) : Word × Word := (readWord t.data a, t.pc)

/-- The halt record and `pc`. -/
def haltPc (t : State) : HaltRecord × Word := (t.halt, t.pc)

/-! ### WellFormed: an ill-formed record for each check -/

/-- ADD has no type 2 (R113). -/
theorem test_wf_refuses_add_type2 : (Decoded.mk 0 2 0 (.reg 1)).wellFormed = false := by decide
/-- MOVE has no type 7 (R113, R174). -/
theorem test_wf_refuses_move_type7 : (Decoded.mk 5 7 0 (.imm 0)).wellFormed = false := by decide
/-- BRANCH has no type 7 (R113, R211). -/
theorem test_wf_refuses_branch_type7 : (Decoded.mk 7 7 0 (.imm 0)).wellFormed = false := by decide
/-- ADDI takes no register (R108). -/
theorem test_wf_refuses_register_in_immediate_row : (Decoded.mk 0 0 0 (.reg 1)).wellFormed = false := by decide
/-- ADD takes no immediate (R108). -/
theorem test_wf_refuses_immediate_in_register_row : (Decoded.mk 0 1 0 (.imm 1)).wellFormed = false := by decide
/-- MOVST reads a register, not memory (R111). -/
theorem test_wf_refuses_memory_outside_movld : (Decoded.mk 5 5 0 (.memAtReg 1)).wellFormed = false := by decide
/-- BEQ has a displacement (R108). -/
theorem test_wf_refuses_missing_displacement : (Decoded.mk 7 1 0 .absent).wellFormed = false := by decide
/-- Every form is accepted somewhere. -/
theorem test_wf_accepts : ((Decoded.mk 4 0 15 (.imm 0x3F)).wellFormed && (Decoded.mk 4 1 15 (.reg 15)).wellFormed &&
    (Decoded.mk 5 1 15 (.memAtReg 15)).wellFormed && (Decoded.mk 6 1 15 .absent).wellFormed &&
    (Decoded.mk 7 6 15 (.imm 0x20)).wellFormed) = true := by decide

/-! ### Decoding: one word of every row, its fields written out as category, type, left register, right field -/

theorem test_decode_addi : decode 0b000_000_0001_111111 = .ok (.addi 1 0x3F) := by decide
theorem test_decode_add : decode 0b000_001_0010_0001_00 = .ok (.add 2 1) := by decide
theorem test_decode_subi : decode 0b001_000_0001_000011 = .ok (.subi 1 3) := by decide
theorem test_decode_sub : decode 0b001_001_0001_0010_00 = .ok (.sub 1 2) := by decide
theorem test_decode_andi : decode 0b010_000_0001_110000 = .ok (.andi 1 0x30) := by decide
theorem test_decode_and : decode 0b010_001_0001_0010_00 = .ok (.and 1 2) := by decide
theorem test_decode_ori : decode 0b011_000_0001_100000 = .ok (.ori 1 0x20) := by decide
theorem test_decode_or : decode 0b011_001_0001_0010_00 = .ok (.or 1 2) := by decide
theorem test_decode_xori : decode 0b100_000_0001_001111 = .ok (.xori 1 15) := by decide
theorem test_decode_xor : decode 0b100_001_0001_0010_00 = .ok (.xor 1 2) := by decide
theorem test_decode_movi : decode 0b101_000_1111_111111 = .ok (.movi 15 0x3F) := by decide
theorem test_decode_movld : decode 0b101_001_0011_0010_00 = .ok (.movld 3 2) := by decide
theorem test_decode_movsti : decode 0b101_100_0010_111111 = .ok (.movsti 2 0x3F) := by decide
theorem test_decode_movst : decode 0b101_101_0111_1000_00 = .ok (.movst 7 8) := by decide
theorem test_decode_shr : decode 0b110_000_0001_111111 = .ok (.shr 1) := by decide
theorem test_decode_shl : decode 0b110_001_0001_000000 = .ok (.shl 1) := by decide
theorem test_decode_jr : decode 0b111_000_0001_101010 = .ok (.jr 1) := by decide
theorem test_decode_beq : decode 0b111_001_0001_000010 = .ok (.beq 1 2) := by decide
theorem test_decode_bne : decode 0b111_010_0001_111110 = .ok (.bne 1 0x3E) := by decide
theorem test_decode_blt : decode 0b111_011_0001_000011 = .ok (.blt 1 3) := by decide
theorem test_decode_bgt : decode 0b111_100_0001_000010 = .ok (.bgt 1 2) := by decide
theorem test_decode_ble : decode 0b111_101_0001_000010 = .ok (.ble 1 2) := by decide
theorem test_decode_bge : decode 0b111_110_0001_111111 = .ok (.bge 1 0x3F) := by decide

/-- V-D01 to V-D09, one word of each category. -/
theorem test_decode_illegal : ([0x0800, 0x3C00, 0x5000, 0x7400, 0x9800, 0xA840, 0xAC00, 0xB800, 0xBC00, 0xC800, 0xFC00, 0xFFFF,
    0x0890] : List Word).all (fun w => decode w = .error (.illegalOpcode w)) = true := by decide

/-- V-D13, V-D15, V-D16, V-D18: the records. -/
theorem test_decode_records : decodeRecord 0xA4C8 = .ok ⟨5, 1, 3, .memAtReg 2⟩ ∧
    decodeRecord 0xB0BF = .ok ⟨5, 4, 2, .imm 0x3F⟩ ∧ decodeRecord 0xC07F = .ok ⟨6, 0, 1, .absent⟩ ∧
    decodeRecord 0xF87F = .ok ⟨7, 6, 1, .imm 0x3F⟩ := by decide

/-- The pseudo-instructions (R117). -/
theorem test_pseudo : encode pseudoNop = 0x0000 ∧ decode pseudoHalt = .error (.illegalOpcode 0xFFFF) := by decide

theorem test_decodeBytes : decodeBytes [0xA4, 0xC8, 0x12] = .ok (.movld 3 2, [0x12]) ∧
    decodeBytes [0xA4] = .error .shortInput := by decide

/-! ### Arithmetic and logic -/

/-- V-A03. -/
theorem test_addi_wraps : see (regPc 1) (run 0x0041 (start [(1, 0xFFFF)] 0x10)) = some (0x0000, 0x11) := by decide
/-- V-A05. -/
theorem test_addi_negative : see (regPc 1) (run 0x0060 (start [(1, 0x10)] 0x10)) = some (0xFFF0, 0x11) := by decide
/-- V-A07. -/
theorem test_add_left_destination : see (fun t => (t.readReg 2, t.readReg 1)) (run 0x0484 (start [(2, 5), (1, 4)] 0x10)) =
    some (9, 4) := by decide
/-- V-A11. -/
theorem test_add_ignored_bits : see (regPc 1) (run 0x044B (start [(1, 3), (2, 4)] 0x10)) = some (7, 0x11) := by decide
/-- V-A12. -/
theorem test_subi_borrows : see (regPc 1) (run 0x2043 (start [(1, 1)] 0x10)) = some (0xFFFE, 0x11) := by decide
/-- V-A15. -/
theorem test_subi_negative : see (regPc 1) (run 0x2060 (start [(1, 0xFFF0)] 0x10)) = some (0x0010, 0x11) := by decide
/-- V-A16. -/
theorem test_sub_left_minus_right : see (regPc 1) (run 0x2448 (start [(1, 3), (2, 5)] 0x10)) = some (0xFFFE, 0x11) := by decide
/-- V-A17. -/
theorem test_sub_same_register : see (regPc 1) (run 0x2444 (start [(1, 0x1234)] 0x10)) = some (0, 0x11) := by decide
/-- V-A20. -/
theorem test_andi_sign_extends : see (regPc 1) (run 0x4070 (start [(1, 0x7FFF)] 0x10)) = some (0x7FF0, 0x11) := by decide
/-- V-A24. -/
theorem test_and : see (regPc 1) (run 0x4448 (start [(1, 0xF0F0), (2, 0xFF00)] 0x10)) = some (0xF000, 0x11) := by decide
/-- V-A27. -/
theorem test_ori_sign_extends : see (regPc 1) (run 0x6060 (start [(1, 1)] 0x10)) = some (0xFFE1, 0x11) := by decide
/-- V-A29. -/
theorem test_or : see (regPc 1) (run 0x6448 (start [(1, 0xF0F0), (2, 0x0F0F)] 0x10)) = some (0xFFFF, 0x11) := by decide
/-- V-A32. -/
theorem test_xori_complements : see (regPc 1) (run 0x807F (start [(1, 0x1234)] 0x10)) = some (0xEDCB, 0x11) := by decide
/-- V-A34. -/
theorem test_xor : see (regPc 1) (run 0x8448 (start [(1, 0xFFFF), (2, 0x5555)] 0x10)) = some (0xAAAA, 0x11) := by decide

/-! ### Moves -/

/-- V-M03. -/
theorem test_movi_negative : see (regPc 1) (run 0xA060 (start [(1, 0xBEEF)] 0x10)) = some (0xFFE0, 0x11) := by decide
/-- V-M06, V-M07: the loaded word whole, at the highest address. -/
theorem test_movld_top : see (regPc 3) (run 0xA4C8 ((start [(2, 0x3FF)] 0x10).setData [(2046, 0x12), (2047, 0x34)])) =
    some (0x1234, 0x11) := by decide
/-- V-M08. -/
theorem test_movld_halts : see (fun t => (haltPc t, t.readReg 3, t.loops))
    (run 0xA4C8 (start [(2, 0x400), (3, 0x7777)] 0x10)) =
    some ((⟨.illegalAddress, 0x10, 0xA4C8, 0x400⟩, 0x10), 0x7777, [(0x10, 1)]) := by decide
/-- V-M14. -/
theorem test_movsti_high_byte_first : see (fun t => t.data) (run 0xB3DF (start [] 0x10)) = some [(0, 0x00), (1, 0x1F)] := by
  decide
/-- V-M15. -/
theorem test_movsti_halts : see (fun t => (haltPc t, t.data)) (run 0xB0BF (start [(2, 0x400)] 0x10)) =
    some ((⟨.illegalAddress, 0x10, 0xB0BF, 0x400⟩, 0x10), []) := by decide
/-- V-M17: a stored byte 0xFF is not listed, since an unlisted byte reads as 0xFF. -/
theorem test_movst_top : see (fun t => (wordPc 0x3FF t, t.data)) (run 0xB444 (start [(1, 0x3FF)] 0x10)) =
    some ((0x03FF, 0x11), [(2046, 0x03)]) := by decide
/-- V-M19. -/
theorem test_movst_halts : see (fun t => (haltPc t, t.data)) (run 0xB5E0 (start [(7, 0x8000), (8, 0x1234)] 0x10)) =
    some ((⟨.illegalAddress, 0x10, 0xB5E0, 0x8000⟩, 0x10), []) := by decide

/-! ### Shifts -/

/-- V-S01. -/
theorem test_shr_logical : see (regPc 1) (run 0xC040 (start [(1, 0xFFFF)] 0x10)) = some (0x7FFF, 0x11) := by decide
/-- V-S06. -/
theorem test_shr_ignores_field : see (regPc 1) (run 0xC07F (start [(1, 4)] 0x10)) = some (2, 0x11) := by decide
/-- V-S08. -/
theorem test_shl_drops_bit15 : see (regPc 1) (run 0xC440 (start [(1, 0x8000)] 0x10)) = some (0, 0x11) := by decide
/-- V-S12. -/
theorem test_shl_register_zero : see (regPc 0) (run 0xC400 (start [(0, 3)] 0x10)) = some (6, 0x11) := by decide

/-! ### Branches -/

/-- V-B19. -/
theorem test_jr_in_place : see (regPc 0) (run 0xE000 (start [] 0)) = some (0, 0) := by decide
/-- V-B22. -/
theorem test_jr_does_not_compare : see (regPc 0) (run 0xE0C0 (start [(3, 0xFFFF), (0, 0x1234)] 0x10)) =
    some (0x1234, 0xFFFF) := by decide
/-- V-B01, V-B11. -/
theorem test_beq_taken : see State.pc (run 0xE442 (start [] 0x10)) = some 0x12 ∧
    see State.pc (run 0xE43F (start [] 0)) = some 0xFFFF := by decide
/-- V-B02. -/
theorem test_beq_not_taken : see State.pc (run 0xE442 (start [(1, 1), (0, 0xFFFF)] 0x10)) = some 0x11 := by decide
/-- V-B15. -/
theorem test_bne_taken : see State.pc (run 0xE87E (start [(1, 4)] 3)) = some 1 := by decide
/-- V-B12. -/
theorem test_bne_register_zero : see State.pc (run 0xE805 (start [(0, 0x1234)] 0x10)) = some 0x11 := by decide
/-- V-B04. -/
theorem test_blt_signed : see State.pc (run 0xEC42 (start [(1, 0x8000), (0, 0x7FFF)] 0x10)) = some 0x12 := by decide
/-- V-B17. -/
theorem test_blt_no_fall_through : see State.pc (run 0xEC43 (start [(1, 1), (0, 0xFFFF)] 2)) = some 3 := by decide
/-- V-B02. -/
theorem test_bgt_signed : see State.pc (run 0xF042 (start [(1, 1), (0, 0xFFFF)] 0x10)) = some 0x12 := by decide
/-- V-B06. -/
theorem test_bgt_equal : see State.pc (run 0xF042 (start [(1, 5), (0, 5)] 0x10)) = some 0x11 := by decide
/-- V-B03. -/
theorem test_ble_signed : see State.pc (run 0xF442 (start [(1, 0xFFFF), (0, 1)] 0x10)) = some 0x12 := by decide
/-- V-B05. -/
theorem test_ble_not_taken : see State.pc (run 0xF442 (start [(1, 0x7FFF), (0, 0x8000)] 0x10)) = some 0x11 := by decide
/-- V-B14. -/
theorem test_bge_register_zero : see State.pc (run 0xF805 (start [(0, 0x8000)] 0x10)) = some 0x15 := by decide
/-- V-B16. -/
theorem test_bge_signed : see State.pc (run 0xF87F (start [(1, 0x8000)] 0xA)) = some 0xB := by decide

/-! ### Halts, counters, phases -/

/-- S1: reset with empty images. -/
theorem test_reset_halts : see (fun t => (haltPc t, t.phase, t.loops)) (step State.reset) =
    some ((⟨.illegalOpcode, 0, 0xFFFF, 0⟩, 0), .halted, []) := by decide
/-- V-B20, the fetch after it. -/
theorem test_fetch_outside : see haltPc (step (start [] 0x400)) = some (⟨.illegalOpcode, 0x400, 0xFFFF, 0⟩, 0x400) := by decide
/-- V-L02. -/
theorem test_count_threshold : see (fun t => (t.loops, t.phase, t.pc)) (run 0 ((start [] 0x10).setLoops [(0x10, 1023999)])) =
    some ([(0x10, 1024000)], .fetchInstr, 0x11) := by decide
/-- V-L03. -/
theorem test_count_past_threshold : see (fun t => (t.loops, haltPc t)) (run 0 ((start [] 0x10).setLoops [(0x10, 1024000)])) =
    some ([(0x10, 1024001)], ⟨.infiniteLoop, 0x10, 0, 0⟩, 0x10) := by decide
/-- V-L04. -/
theorem test_decode_before_count : see (fun t => (t.loops, t.halt.reason))
    (run 0xFFFF ((start [] 0x10).setLoops [(0x10, 1024000)])) = some ([(0x10, 1024000)], .illegalOpcode) := by decide
/-- V-L05. -/
theorem test_count_before_address : see (fun t => (t.loops, t.halt.reason))
    (run 0xA4C8 ((start [(2, 0x400)] 0x10).setLoops [(0x10, 1024000)])) = some ([(0x10, 1024001)], .infiniteLoop) := by decide
/-- V-C01, step 1 and step 2. -/
theorem test_phase_fetch_decode :
    see (fun t => (t.ir, t.phase)) (stepPhase (State.reset.withFetchWord 16 0x0044)) = some (0x0044, .decodeInstr) ∧
    see (fun t => (t.dec, t.phase)) (stepPhase ((State.reset.setIr 0x0044).setPhase .decodeInstr)) =
      some (some ⟨0, 0, 1, .imm 4⟩, .calculateEa) := by decide
/-- V-C01, step 4 and step 5. -/
theorem test_phase_operands_execute :
    see (fun t => (t.opnd, t.phase)) (stepPhase ((State.reset.setDec (some ⟨0, 0, 1, .imm 4⟩)).setPhase .fetchOperands)) =
      some (0x0004, .executeInstr) ∧
    see (fun t => (regPc 1 t, t.phase))
      (stepPhase (((State.reset.setDec (some ⟨0, 0, 1, .imm 4⟩)).setOpnd 4).setPhase .executeInstr)) =
      some ((0x0004, 0x0001), .writeBack) := by decide
/-- The two stops of states no run reaches (log 9). -/
theorem test_phase_stops : stepPhase (State.reset.setPhase .executeInstr) = .fault .noDecodedInstruction ∧
    stepPhase ((start [] 0x400).setPhase .calculateEa) = .fault .noLoopCounter := ⟨rfl, rfl⟩

/-! ### Address decoder -/

/-- V-R01 to V-R09. -/
theorem test_address_decoder : ([0x0000, 0x0010, 0x03FF] : List Word).all addrOK = true ∧
    ([0x0400, 0x07FF, 0x0C00, 0x7FFF, 0x8000, 0xFFFF] : List Word).any addrOK = false ∧ wordIndex 0x03FF = 1023 := by decide

/-! ### Host side -/

/-- V-I02. -/
theorem test_code_image : (codeOfImage [0xA0, 0x45, 0xA0]).map (fun m => (readWord m 0, readWord m 1, readWord m 2)) =
    some (0xA045, 0xA0FF, 0xFFFF) := by decide
/-- V-I03, and a digit of the other case. -/
theorem test_data_image : (dataOfLines ["00051234".toList, "ffFa".toList]).map
    (fun m => (readWord m 0, readWord m 1, readWord m 2, readWord m 3)) = some (0x0005, 0x1234, 0xFFFA, 0xFFFF) := by decide
/-- S1 and S4: the report lines. -/
theorem test_report_lines :
    reportLine ⟨.illegalOpcode, 0, 0xFFFF, 0⟩ = some "Illegal instruction ffff detected at address 0000" ∧
    reportLine ⟨.infiniteLoop, 0, 0xE000, 0⟩ =
      some "Possible infinite loop detected with instruction e000 at address 0000" := by decide
/-- The third format of part 1.4, with V-M18's record. -/
theorem test_report_address : reportLine ⟨.illegalAddress, 0x10, 0xB444, 0x400⟩ =
    some "Illegal address 0400 detected with instruction b444 at address 0010" := by decide
/-- R80's line, worked by hand. -/
theorem test_dump_line : dumpLine [(16, 0x41), (17, 0x20)] 1 =
    "00000010  4120 ffff ffff ffff ffff ffff ffff ffff |A...............|" := by decide
/-- R116's forms. -/
theorem test_asm_text : asmText (.movst 2 1) = "MOVST [R2], R1" ∧ asmText (.beq 1 0x3E) = "BEQ R1, #-2" ∧
    asmText (.shr 15) = "SHR R15" := by decide
/-- The table of opcodes has no two equal patterns (R110). -/
theorem test_rows_disjoint : opcodeRows.Pairwise (fun r q => r.pattern ≠ q.pattern) := by decide

/-! ### Witnesses: for each statement with hypotheses, a case that meets them, and one for each clause at its boundary -/

theorem witness_EncodeGivesBack : decode 0xC07F = .ok (.shr 1) ∧ decode 0x044B = .ok (.add 1 2) := by decide

/-- The last row, the lowest and the highest word of it; and one row twice, for the last clause. -/
theorem witness_DecoderAgreesWithTheOpcodeTable : decode 0xF800 = .ok (.bge 0 0) ∧ decode 0xFBFF = .ok (.bge 15 0x3F) ∧
    ∃ r ∈ opcodeRows, (0xFBFF : Word) &&& 0xFC00 = r.pattern ∧ (0xF800 : Word) &&& 0xFC00 = r.pattern := by
  exact ⟨by decide, by decide, ⟨"BGE", 0xF800, .B⟩, by decide, by decide, by decide⟩

theorem witness_VerdictDependsOnCategoryAndTypeOnly :
    (0xFC00 : Word).extractLsb' 13 3 = (0xFFFF : Word).extractLsb' 13 3 ∧
    (0xFC00 : Word).extractLsb' 10 3 = (0xFFFF : Word).extractLsb' 10 3 := by decide

theorem witness_LowTwoBits : (Instr.add 1 2).format = .R ∧ decode 0x0448 = .ok (.add 1 2) ∧
    (0x0448 : Word) &&& 0xFFFC = 0x044B &&& 0xFFFC ∧ (Instr.movld 3 2).format = .R ∧ decode 0xA4C8 = .ok (.movld 3 2) := by
  decide

theorem witness_RightFieldSelectsNothing : (Instr.jr 1).format = .U ∧ decode 0xE06A = .ok (.jr 1) ∧
    (0xE06A : Word) &&& 0xFFC0 = 0xE040 &&& 0xFFC0 := by decide

theorem witness_DecodedRecords : decodeRecord 0xA4C8 = .ok ⟨5, 1, 3, .memAtReg 2⟩ := by decide

theorem witness_Immediate : decodeRecord 0x03FF = .ok ⟨0, 0, 15, .imm 0x3F⟩ ∧ decodeRecord 0x0020 = .ok ⟨0, 0, 0, .imm 0x20⟩ ∧
    decodeRecord 0x001F = .ok ⟨0, 0, 0, .imm 0x1F⟩ := by decide

/-- Of every row, the lowest and the highest word it matches: the hypothesis of `WordsDecodeTo`. -/
theorem witness_WordsDecodeTo : opcodeRows.all (fun r => r.pattern &&& 0xFC00 = r.pattern ∧
    (r.pattern ||| 0x03FF) &&& 0xFC00 = r.pattern) = true := by decide

/-- The last address and the first one past it, and the largest. -/
theorem witness_MovldLoadsTheWord : ((start [(2, 0x3FF)] 0).readReg 2).toNat < 0x0400 ∧
    0x0400 ≤ ((start [(2, 0x400)] 0).readReg 2).toNat ∧ 0x0400 ≤ ((start [(2, 0xFFFF)] 0).readReg 2).toNat := by decide

theorem witness_Stores : wordIndex (storeAddress 2 (start [(2, 0x3FF)] 0)) = 1023 ∧
    ((start [(2, 0x3FF)] 0).readReg 2).toNat < 0x0400 ∧ 0x0400 ≤ ((start [(2, 0x400)] 0).readReg 2).toNat := by decide

theorem witness_StoreThenLoad : ∃ s t u : State, (s.readReg 2).toNat < 0x0400 ∧ exec (.movst 2 1) s = .next t ∧
    u.readReg 5 = s.readReg 2 ∧ (∀ b, b = 2 * (s.readReg 2).toNat ∨ b = 2 * (s.readReg 2).toNat + 1 →
      readByte u.data b = readByte t.data b) := by
  refine ⟨start [(2, 0x3FF), (1, 0xA5C3)] 0, _, (start [(5, 0x3FF)] 7).setData [(2046, 0xA5), (2047, 0xC3)], by decide, rfl,
    by decide, ?_⟩
  rintro b (rfl | rfl) <;> decide

theorem witness_AddressDecoder : addrOK 0x03FF = true ∧ addrOK 0x0400 = false := by decide

theorem witness_OnlyMovesReachData : (∃ t, exec (.addi 1 4) State.reset = .next t) ∧
    (∀ rl rs, Instr.addi 1 4 ≠ .movld rl rs) ∧ (∀ rl imm, Instr.addi 1 4 ≠ .movsti rl imm) ∧
    (∀ rl rs, Instr.addi 1 4 ≠ .movst rl rs) := by
  refine ⟨⟨_, rfl⟩, ?_, ?_, ?_⟩ <;> intros <;> simp

/-- Of each store, one that completes at the last address and one that halts at the first past it. -/
theorem witness_StoresOnlyWrite (rl : RegIdx) (imm : BitVec 6) (rs : RegIdx) :
    ((∃ n, Instr.movsti rl imm = .movsti rl n) ∨ ∃ r, Instr.movsti rl imm = .movst rl r) ∧
    ((∃ n, Instr.movst rl rs = .movsti rl n) ∨ ∃ r, Instr.movst rl rs = .movst rl r) ∧
    see State.phase (exec (.movsti 2 0x3F) (start [(2, 0x3FF)] 0)) = some .fetchInstr ∧
    see State.phase (exec (.movsti 2 0x3F) (start [(2, 0x400)] 0)) = some .halted ∧
    see State.phase (exec (.movst 2 1) (start [(2, 0x3FF)] 0)) = some .fetchInstr ∧
    see State.phase (exec (.movst 2 1) (start [(2, 0x400)] 0)) = some .halted :=
  ⟨.inl ⟨imm, rfl⟩, .inr ⟨rs, rfl⟩, by decide, by decide, by decide, by decide⟩

/-- At the top of the counter, where the addition wraps. -/
theorem witness_PcAdvances : (recordOf (.addi 1 4)).cat ≠ 7 ∧
    ∃ t, exec (.addi 1 4) (start [] 0xFFFF) = .next t ∧ t.phase ≠ .halted :=
  ⟨by decide, _, rfl, by decide⟩

theorem witness_OnlyTheDestination : ∃ t, exec (.addi 1 4) State.reset = .next t ∧ t.readReg 1 ≠ State.reset.readReg 1 :=
  ⟨_, rfl, by decide⟩

/-- A word placed at the last code address, its count one below the threshold. -/
theorem witness_StepRuns : ∃ s : State, s.phase = .fetchInstr ∧ decode (codeRead s.code s.pc) = .ok (.addi 1 4) ∧
    loopCount s.loops s.pc.toNat < 1024000 ∧ s.pc = 0x3FF :=
  ⟨((start [] 0x3FF).setLoops [(0x3FF, 1023999)]).withFetchWord 16 0x0044, by decide, by decide, by decide, by decide⟩

theorem witness_FetchAndWriteBack : State.reset.phase = .fetchInstr ∧ (State.reset.setPhase .writeBack).phase = .writeBack := by
  decide

theorem witness_DecodePhase : ((State.reset.setIr 0xFBFF).setPhase .decodeInstr).phase = .decodeInstr ∧
    decodeRecord ((State.reset.setIr 0xFBFF).setPhase .decodeInstr).ir = .ok ⟨7, 6, 15, .imm 0x3F⟩ ∧
    ((State.reset.setIr 0xFC00).setPhase .decodeInstr).phase = .decodeInstr ∧
    decodeRecord ((State.reset.setIr 0xFC00).setPhase .decodeInstr).ir = .error (.illegalOpcode 0xFC00) := by decide

/-- The state of a run that is about to count the visit past the threshold: `JR R0` at 0. -/
def loopEnd : State :=
  { State.reset with
    code := [(0, 0xE0), (1, 0x00)]
    loops := [(0, 1024000)]
    ir := 0xE000
    dec := some ⟨7, 0, 0, .absent⟩
    phase := .calculateEa }

theorem loopEnd_inv : loopEnd.Inv where
  codeWf := by decide
  dataWf := by decide
  loopsWf := by decide
  counts a := by
    by_cases h : 0 = a
    · subst h
      exact .inl (by decide)
    · exact .inl (by simp [loopEnd, loopCount, sparseRead, h])
  haltedIff := by decide
  noRecord _ := rfl
  record h := by cases h
  recordAddr h := by cases h
  fetched _ := by decide
  decoded _ := ⟨.jr 0, by decide, by decide⟩
  latched h := by cases h

/-- Past the threshold at the first address, in a state of the invariant; and below it at the last address. -/
theorem witness_LoopDetection : loopEnd.phase = .calculateEa ∧ loopEnd.pc.toNat < 1024 ∧
    loopCount loopEnd.loops loopEnd.pc.toNat + 1 > 1024000 ∧ loopEnd.Inv ∧
    see (fun t => t.halt.reason) (stepPhase loopEnd) = some .infiniteLoop :=
  ⟨by decide, by decide, by decide, loopEnd_inv, by decide⟩

theorem witness_LoopDetection_below : ∃ s : State, s.phase = .calculateEa ∧ s.pc.toNat = 1023 ∧
    loopCount s.loops s.pc.toNat + 1 = 1024000 :=
  ⟨((start [] 0x3FF).setLoops [(0x3FF, 1023999)]).setPhase .calculateEa, by decide, by decide, by decide⟩

/-- A state in FETCH_OPERANDS or EXECUTE_INSTR with an instruction decoded. -/
def inside (p : Phase) (i : Instr) (s : State) : State := (s.setDec (some (recordOf i))).setPhase p

theorem witness_OperandPhase (i : Instr) (s : State) :
    (inside .fetchOperands i s).phase = .fetchOperands ∧ (inside .fetchOperands i s).dec = some (recordOf i) ∧
    (recordOf (.beq 1 0x20)).right = .imm 0x20 ∧ (recordOf (.movld 3 2)).right = .memAtReg 2 ∧
    ((inside .fetchOperands (.movld 3 2) (start [(2, 0x3FF)] 0)).readReg 2).toNat < 1024 ∧
    1024 ≤ ((inside .fetchOperands (.movld 3 2) (start [(2, 0x400)] 0)).readReg 2).toNat ∧
    (recordOf (.movst 2 1)).right = .reg 1 ∧ (recordOf (.jr 1)).right = .absent :=
  ⟨rfl, rfl, rfl, rfl, by decide, by decide, rfl, rfl⟩

theorem witness_HaltIsTerminal : (State.reset.setPhase .halted).phase = .halted := by decide

/-- One halt of each phase that has one, and a phase that goes on. -/
theorem witness_EachHalt :
    see State.phase (stepPhase ((State.reset.setIr 0xFFFF).setPhase .decodeInstr)) = some .halted ∧
    see State.phase (stepPhase loopEnd) = some .halted ∧
    see State.phase (stepPhase (inside .fetchOperands (.movld 3 2) (start [(2, 0x400)] 0))) = some .halted ∧
    see State.phase (stepPhase (inside .executeInstr (.movsti 2 0x3F) (start [(2, 0x400)] 0))) = some .halted ∧
    see State.phase (stepPhase (inside .executeInstr (.movst 2 1) (start [(2, 0x400)] 0))) = some .halted ∧
    see State.phase (stepPhase (inside .executeInstr (.movst 2 1) (start [(2, 0x3FF)] 0))) = some .writeBack := by decide

/-- A run about to fetch `w` at 0x10, `n` visits counted there. -/
def visited (n : Nat) (w : Nat) : State := ((start [(2, 0x400)] 0x10).setLoops [(0x10, n)]).withFetchWord 16 w

/-- Each clause, on both sides of the threshold. -/
theorem witness_FirstHalt : (visited 1024000 0xFFFF).phase = .fetchInstr ∧
    decode (codeRead (visited 1024000 0xFFFF).code 0x10) = .error (.illegalOpcode 0xFFFF) ∧
    decode (codeRead (visited 1024000 0xA4C8).code 0x10) = .ok (.movld 3 2) ∧
    1024000 ≤ loopCount (visited 1024000 0xA4C8).loops 0x10 ∧ loopCount (visited 1023999 0xA4C8).loops 0x10 < 1024000 := by
  decide

/-- A halt of each reason. -/
theorem witness_HaltsArePrecise :
    see (fun t => (t.phase, t.halt.reason)) (step (visited 1 0xFFFF)) = some (.halted, .illegalOpcode) ∧
    see (fun t => (t.phase, t.halt.reason)) (step (visited 1024000 0)) = some (.halted, .infiniteLoop) ∧
    see (fun t => (t.phase, t.halt.reason)) (step (visited 1 0xB0BF)) = some (.halted, .illegalAddress) := by decide

theorem witness_FetchOutside : (start [] 0x3FF).pc.toNat < 1024 ∧ (start [] 0x400).phase = .fetchInstr ∧
    1024 ≤ (start [] 0x400).pc.toNat := by decide

/-- For the statements whose only hypothesis on the state is that it is at FETCH_INSTR. -/
theorem witness_AtFetch : State.reset.phase = .fetchInstr := by decide

/-- An instruction that completes, and a halt after two, three, four and five phases. -/
theorem witness_SixPhases : see State.phase (step (visited 1 0x0044)) = some .fetchInstr ∧
    see State.phase (step (visited 1 0xFFFF)) = some .halted ∧ see State.phase (step (visited 1024000 0)) = some .halted ∧
    see State.phase (step (visited 1 0xA4C8)) = some .halted ∧ see State.phase (step (visited 1 0xB484)) = some .halted := by
  decide

/-- `JR R0` at 0 on its first visit, and on the one past the threshold. -/
theorem witness_BranchInPlace (n : Nat) (h : n = 0 ∨ n = 1024000) :
    ∃ s t : State, s.phase = .fetchInstr ∧ decode (codeRead s.code s.pc) = .ok (.jr 0) ∧ (recordOf (.jr 0)).cat = 7 ∧
      exec (.jr 0) (s.prepared (.jr 0)) = .next t ∧ t.pc = s.pc ∧ loopCount s.loops s.pc.toNat ≤ 1024000 ∧
      loopCount s.loops s.pc.toNat = n := by
  refine ⟨(State.reset.setLoops [(0, n)]).withFetchWord 16 0xE000, _, rfl, by rcases h with rfl | rfl <;> decide, by decide, rfl,
    by rcases h with rfl | rfl <;> decide, by rcases h with rfl | rfl <;> decide,
    by rcases h with rfl | rfl <;> decide⟩

theorem witness_StepAnswers : ∃ t, step State.reset = .next t := ⟨_, rfl⟩

theorem witness_RunAnswers : ∃ t, Host.Core.run core 1 State.reset = .next t := ⟨_, rfl⟩

theorem witness_StepKeepsTheRunInvariant : loopEnd.Inv ∧ (∃ t, step loopEnd = .next t) ∧ ∃ t, stepPhase loopEnd = .next t :=
  ⟨loopEnd_inv, ⟨_, rfl⟩, ⟨_, rfl⟩⟩

theorem witness_Launch : codeOfImage [0xE0, 0x00] = some [(0, 0xE0), (1, 0x00)] ∧
    dataOfLines ["0005".toList] = some [(0, 0x00), (1, 0x05)] := by decide

/-- Two states that differ in every latch. -/
theorem witness_Latches : State.reset.view =
    (((State.reset.setIr 1).setDec (some ⟨0, 0, 0, .absent⟩)).setOpnd 2).view ∧
    (((State.reset.setIr 1).setDec (some ⟨0, 0, 0, .absent⟩)).setOpnd 2).phase = .fetchInstr := by decide

/-- An image of odd length, and the longest one. -/
theorem witness_CodeImage : ([0xA0, 0x45, 0xA0] : List Byte).length ≤ 2048 ∧ (List.replicate 2048 (0 : Byte)).length ≤ 2048 :=
  ⟨by decide, by rw [List.length_replicate]⟩

theorem witness_DataImage : wordsOfLines ["00051234".toList, "FFfa".toList] = some [0x0005, 0x1234, 0xFFFA] ∧
    wordsOfLine "00051234".toList = some [0x0005, 0x1234] := by decide

theorem witness_Nop : (visited 1023999 0).phase = .fetchInstr ∧
    codeRead (visited 1023999 0).code (visited 1023999 0).pc = 0x0000 ∧
    loopCount (visited 1023999 0).loops (visited 1023999 0).pc.toNat < 1024000 := by decide

theorem witness_PlacedWord : (start [] 0x3FF).pc.toNat < 1024 := by decide

end Sys2Proof.Tests
end

section
/-! SUPPORT. The phase machine from phase to phase: what each phase step answers, and the folded step as the phases left of
the instruction (spec 45_control_unit.md R246, R250). -/

namespace Sys2Proof.Machine

variable {s : State} {i : Instr}

/-! ### One phase -/

@[simp] theorem phaseOutcome_ok (t : State) : phaseOutcome (.ok t) = .next t := rfl
@[simp] theorem phaseOutcome_error (t : State) : phaseOutcome (.error t) = .next t := rfl

theorem stepPhase_of_fetchInstr (h : s.phase = .fetchInstr) : stepPhase s = .next (fetchInstr s) := by
  simp [stepPhase, h]

theorem stepPhase_of_decodeInstr (h : s.phase = .decodeInstr) : stepPhase s = phaseOutcome (decodeInstr s) := by
  simp [stepPhase, h]

theorem stepPhase_of_calculateEa (h : s.phase = .calculateEa) (ha : addrOK s.pc = true) :
    stepPhase s = phaseOutcome (calculateEa s) := by
  simp [stepPhase, h, ha]

theorem stepPhase_of_fetchOperands (h : s.phase = .fetchOperands) (hd : s.dec = some (recordOf i)) :
    stepPhase s = phaseOutcome (fetchOperands (recordOf i).right s) := by
  simp [stepPhase, h, hd, toInstr_recordOf]

theorem stepPhase_of_executeInstr (h : s.phase = .executeInstr) (hd : s.dec = some (recordOf i)) :
    stepPhase s = phaseOutcome (executeInstr (recordOf i).cat (effectOf i) s) := by
  simp [stepPhase, h, hd, toInstr_recordOf]

theorem stepPhase_of_writeBack (h : s.phase = .writeBack) : stepPhase s = .next (writeBack s) := by
  simp [stepPhase, h]

theorem decodeInstr_of_ok (hd : decode s.ir = .ok i) :
    decodeInstr s = .ok ((s.setDec (some (recordOf i))).setPhase .calculateEa) := by
  simp [decodeInstr, (decode_eq_ok_iff _ _).1 hd]

theorem decodeInstr_of_error {e : DecodeError} (hd : decode s.ir = .error e) :
    decodeInstr s = .error (raiseHalt .illegalOpcode 0 s) := by
  simp [decodeInstr, (decode_error_iff _ _).1 hd]

/-- A legal word was fetched from inside code memory: outside it every fetch reads the illegal fill word (D2). -/
theorem addrOK_of_decode_codeRead {m : Memory} {a : Word} (h : decode (codeRead m a) = .ok i) : addrOK a = true := by
  by_contra ha
  rw [codeRead_of_not_addrOK m (by simpa using ha), show decode 0xFFFF = .error (.illegalOpcode 0xFFFF) by decide] at h
  cases h

@[simp] theorem advancePc_code (cat : BitVec 3) (e : Effect) : (advancePc cat e).code = e.state.code := by
  unfold advancePc; split <;> rfl
@[simp] theorem advancePc_data (cat : BitVec 3) (e : Effect) : (advancePc cat e).data = e.state.data := by
  unfold advancePc; split <;> rfl
@[simp] theorem advancePc_loops (cat : BitVec 3) (e : Effect) : (advancePc cat e).loops = e.state.loops := by
  unfold advancePc; split <;> rfl
@[simp] theorem advancePc_halt (cat : BitVec 3) (e : Effect) : (advancePc cat e).halt = e.state.halt := by
  unfold advancePc; split <;> rfl

theorem fetchOperands_memAtReg_of_addrOK {rs : RegIdx} (ha : addrOK (s.readReg rs) = true) :
    fetchOperands (.memAtReg rs) s =
      .ok ((s.setOpnd (readWord s.data (wordIndex (s.readReg rs)))).setPhase .executeInstr) := by
  simp [fetchOperands, memRead_of_addrOK s ha]

theorem fetchOperands_memAtReg_of_not_addrOK {rs : RegIdx} (ha : addrOK (s.readReg rs) = false) :
    fetchOperands (.memAtReg rs) s = .error (raiseHalt .illegalAddress (s.readReg rs) s) := by
  simp [fetchOperands, memRead_of_not_addrOK s ha]

/-- EXECUTE_INSTR goes on to WRITE_BACK, having written neither code memory, the counters nor the halt record and at most
one data word, or halts on a store's address. -/
theorem executeInstr_cases (i : Instr) (s : State) :
    (∃ t : State, executeInstr (recordOf i).cat (effectOf i) s = .ok (t.setPhase .writeBack) ∧
      t.code = s.code ∧ t.loops = s.loops ∧ t.halt = s.halt ∧
      (t.data = s.data ∨ ∃ a v, t.data = writeWord s.data (wordIndex a) v)) ∨
    (∃ a, addrOK a = false ∧
      executeInstr (recordOf i).cat (effectOf i) s = .error (raiseHalt .illegalAddress a s)) := by
  rcases effectOf_cases i s with ⟨rl, v, he⟩ | ⟨a, v, -, he⟩ | ⟨v, -, he⟩ | he | ⟨a, ha, he⟩
  · exact .inl ⟨_, executeInstr_ok he, by simp, by simp, by simp, .inl (by simp)⟩
  · exact .inl ⟨_, executeInstr_ok he, by simp, by simp, by simp, .inr ⟨a, v, by simp⟩⟩
  · exact .inl ⟨_, executeInstr_ok he, by simp, by simp, by simp, .inl (by simp)⟩
  · exact .inl ⟨_, executeInstr_ok he, by simp, by simp, by simp, .inl (by simp)⟩
  · exact .inr ⟨a, ha, executeInstr_error he⟩

/-! ### The phases left of an instruction -/

/-- From FETCH_OPERANDS the three phases left are the meaning of the decoded instruction (R246). -/
theorem finishInstr_eq_exec (hp : s.phase = .fetchOperands) (hd : s.dec = some (recordOf i)) :
    finishInstr 3 s = exec i s := by
  have hb : s.atBoundary = false := by simp [State.atBoundary, hp]
  have hs := stepPhase_of_fetchOperands hp hd
  rw [exec_eq_runInstr]
  rcases fetchOperands_cases (recordOf i).right s with hf | ⟨rs, -, -, hf⟩ <;> rw [hf] at hs
  · replace hf : fetchOperands (recordOf i).right s = .ok (latchedState i s) := hf
    have hx := stepPhase_of_executeInstr (latchedState_phase i s) hd
    rw [runInstr_of_latched hf, finishInstr_succ_of_next hb hs]
    rcases executeInstr_cases i (latchedState i s) with ⟨t, he, -⟩ | ⟨a, -, he⟩ <;> rw [he] at hx ⊢
    · exact (finishInstr_succ_of_next rfl hx).trans (finishInstr_succ_of_next rfl (stepPhase_of_writeBack rfl))
    · exact (finishInstr_succ_of_next rfl hx).trans (finishInstr_of_boundary rfl)
  · rw [runInstr_of_load_halt hf, finishInstr_succ_of_next hb hs, finishInstr_of_boundary rfl]

/-- The step at FETCH_INSTR is the fetch and the five phases left of the instruction (R250, D16). -/
theorem step_eq_finishInstr (h : s.phase = .fetchInstr) : step s = finishInstr 5 (fetchInstr s) := by
  cases hd : decode (fetchInstr s).ir with
  | error e =>
    have hdecode : stepPhase (fetchInstr s) = .next (raiseHalt .illegalOpcode 0 (fetchInstr s)) := by
      rw [stepPhase_of_decodeInstr (fetchInstr_phase s), decodeInstr_of_error hd, phaseOutcome_error]
    rw [finishInstr_succ_of_next rfl hdecode, finishInstr_of_boundary rfl]
    simp only [step, stepInstr, h, hd]
  | ok i =>
    have hdecode : stepPhase (fetchInstr s) = .next (((fetchInstr s).setDec (some (recordOf i))).setPhase .calculateEa) := by
      rw [stepPhase_of_decodeInstr (fetchInstr_phase s), decodeInstr_of_ok hd, phaseOutcome_ok]
    rw [finishInstr_succ_of_next rfl hdecode]
    have hcount := stepPhase_of_calculateEa (s := ((fetchInstr s).setDec (some (recordOf i))).setPhase .calculateEa) rfl
      (addrOK_of_decode_codeRead hd)
    rcases calculateEa_cases (((fetchInstr s).setDec (some (recordOf i))).setPhase .calculateEa) with
      ⟨-, he⟩ | ⟨-, he⟩ <;> rw [he] at hcount
    · rw [finishInstr_succ_of_next rfl hcount, finishInstr_eq_exec rfl rfl]
      simp only [step, stepInstr, h, hd, he]
    · rw [finishInstr_succ_of_next rfl hcount, finishInstr_of_boundary rfl]
      simp only [step, stepInstr, h, hd, he]

end Sys2Proof.Machine
end

section
/-! SUPPORT. The invariant of a run through the six phases: how a state meets it before a halt and at one, and that every
phase keeps it. The obligations on the invariant follow. -/

namespace Sys2Proof.Machine

variable {s : State}

/-! ### Meeting the invariant -/

/-- A core that has not halted meets the invariant with the halt record at its reset value and every count within the
threshold. -/
theorem inv_of_running (hphase : s.phase ≠ .halted)
    (hhalt : s.halt = { reason := .none, pc := 0, instr := 0, addr := 0 })
    (hcode : s.code.wf = true) (hdata : s.data.wf = true) (hloops : s.loops.wf = true)
    (hcounts : ∀ a, loopCount s.loops a ≤ Config.loopThreshold)
    (hfetched : s.phase.holdsWord = true → s.ir = codeRead s.code s.pc)
    (hdecoded : s.phase.holdsRecord = true → ∃ i, decode s.ir = .ok i ∧ s.dec = some (recordOf i))
    (hlatched : s.phase = .executeInstr → ∀ i, decode s.ir = .ok i → s.operandLatched (recordOf i).right) : s.Inv where
  codeWf := hcode
  dataWf := hdata
  loopsWf := hloops
  counts a := .inl (hcounts a)
  haltedIff := by simp [hphase, hhalt]
  noRecord _ := hhalt
  record h := absurd h hphase
  recordAddr h := absurd h hphase
  fetched := hfetched
  decoded := hdecoded
  latched := hlatched

/-- A halt taken with the word at `pc` in `ir` meets the invariant (60_exceptions.md R264). -/
theorem raiseHalt_inv {r : HaltReason} {a : Word} (hr : r ≠ .none) (haddr : r = .illegalAddress → addrOK a = false)
    (hcode : s.code.wf = true) (hdata : s.data.wf = true) (hloops : s.loops.wf = true)
    (hcounts : ∀ b, loopCount s.loops b ≤ Config.loopThreshold ∨
      (r = .infiniteLoop ∧ b = s.pc.toNat ∧ loopCount s.loops b = Config.loopThreshold + 1))
    (hfetched : s.ir = codeRead s.code s.pc) : (raiseHalt r a s).Inv where
  codeWf := hcode
  dataWf := hdata
  loopsWf := hloops
  counts := hcounts
  haltedIff := by simp [hr]
  noRecord h := absurd rfl h
  record _ := ⟨rfl, rfl⟩
  recordAddr _ := by
    by_cases h : r = .illegalAddress
    · simpa [h] using haddr h
    · simp [h]
  fetched _ := hfetched
  decoded h := by cases h
  latched h := by cases h

/-! ### What the invariant says before a halt -/

theorem State.Inv.counts_le (h : s.Inv) (hp : s.phase ≠ .halted) (a : Nat) :
    loopCount s.loops a ≤ Config.loopThreshold := by
  rcases h.counts a with hle | ⟨hr, -⟩
  · exact hle
  · rw [h.noRecord hp] at hr
    cases hr

/-- A halt taken in a phase that holds the word at `pc`, the counters as they are. -/
theorem State.Inv.halts (h : s.Inv) (hp : s.phase ≠ .halted) (hw : s.phase.holdsWord = true) {r : HaltReason} {a : Word}
    (hr : r ≠ .none) (haddr : r = .illegalAddress → addrOK a = false) : (raiseHalt r a s).Inv :=
  raiseHalt_inv hr haddr h.codeWf h.dataWf h.loopsWf (fun b => .inl (h.counts_le hp b)) (h.fetched hw)

/-! ### Every phase keeps the invariant -/

theorem fetchInstr_inv (h : s.Inv) (hp : s.phase = .fetchInstr) : (fetchInstr s).Inv :=
  have hrun : s.phase ≠ .halted := by simp [hp]
  inv_of_running (by simp) (h.noRecord hrun) h.codeWf h.dataWf h.loopsWf (h.counts_le hrun) (fun _ => rfl)
    (fun hr => by cases hr) (fun he => by cases he)

theorem writeBack_inv (h : s.Inv) (hp : s.phase = .writeBack) : (writeBack s).Inv :=
  have hrun : s.phase ≠ .halted := by simp [hp]
  inv_of_running (by simp) (h.noRecord hrun) h.codeWf h.dataWf h.loopsWf (h.counts_le hrun) (fun hw => by cases hw)
    (fun hr => by cases hr) (fun he => by cases he)

theorem decodeInstr_inv (h : s.Inv) (hp : s.phase = .decodeInstr) :
    ∃ t, phaseOutcome (decodeInstr s) = .next t ∧ t.Inv := by
  have hrun : s.phase ≠ .halted := by simp [hp]
  have hword : s.phase.holdsWord = true := by simp [hp, Phase.holdsWord]
  cases hd : decode s.ir with
  | error e =>
    exact ⟨_, by rw [decodeInstr_of_error hd, phaseOutcome_error], h.halts hrun hword (by simp) (by simp)⟩
  | ok i =>
    refine ⟨_, by rw [decodeInstr_of_ok hd, phaseOutcome_ok], ?_⟩
    exact inv_of_running (by simp) (h.noRecord hrun) h.codeWf h.dataWf h.loopsWf (h.counts_le hrun)
      (fun _ => h.fetched hword) (fun _ => ⟨i, hd, rfl⟩) (fun he => by cases he)

/-- Counting the visit at `pc` leaves every other count, so only that one can pass the threshold (R236). -/
theorem loopCount_countVisit_le {c : Counters} {p : Nat} (hle : ∀ a, loopCount c a ≤ Config.loopThreshold) (a : Nat) :
    loopCount (countVisit c p) a ≤ Config.loopThreshold ∨
      (a = p ∧ loopCount (countVisit c p) a = loopCount c p + 1) := by
  by_cases hap : a = p
  · exact .inr ⟨hap, by rw [hap, loopCount_countVisit_self]⟩
  · exact .inl (by rw [loopCount_countVisit_of_ne c hap]; exact hle a)

theorem calculateEa_inv (h : s.Inv) (hp : s.phase = .calculateEa) (ha : addrOK s.pc = true) :
    ∃ t, phaseOutcome (calculateEa s) = .next t ∧ t.Inv := by
  have hrun : s.phase ≠ .halted := by simp [hp]
  have hfetched := h.fetched (by simp [hp, Phase.holdsWord])
  have hwf : (countVisit s.loops s.pc.toNat).wf = true := countVisit_wf ((addrOK_iff s.pc).1 ha) h.loopsWf
  have hcount := loopCount_countVisit_le (p := s.pc.toNat) (h.counts_le hrun)
  rcases calculateEa_cases s with ⟨hlt, he⟩ | ⟨hge, he⟩
  · refine ⟨_, by rw [he, phaseOutcome_ok], ?_⟩
    refine inv_of_running (by simp) (h.noRecord hrun) h.codeWf h.dataWf hwf (fun a => ?_) (fun _ => hfetched)
      (fun _ => h.decoded (by simp [hp, Phase.holdsRecord])) (fun he => by cases he)
    rcases hcount a with hle | ⟨-, heq⟩
    · exact hle
    · exact heq.trans_le hlt
  · refine ⟨_, by rw [he, phaseOutcome_error], ?_⟩
    refine raiseHalt_inv (by simp) (by simp) h.codeWf h.dataWf hwf (fun a => ?_) hfetched
    have hat : loopCount s.loops s.pc.toNat = Config.loopThreshold := (h.counts_le hrun _).antisymm hge
    exact (hcount a).imp_right fun ⟨hap, heq⟩ => ⟨rfl, hap, hat ▸ heq⟩

/-- What FETCH_OPERANDS latches is the operand's value (R50, R240). -/
theorem operandLatched_of_fetchOperands {right : RightOperand} {t : State} (h : fetchOperands right s = .ok t) :
    t.operandLatched right := by
  cases right with
  | imm rf =>
    cases h
    rfl
  | reg rs => trivial
  | absent => trivial
  | memAtReg rs =>
    cases ha : addrOK (s.readReg rs) with
    | true =>
      cases (fetchOperands_memAtReg_of_addrOK ha).symm.trans h
      exact ⟨ha, rfl⟩
    | false => cases (fetchOperands_memAtReg_of_not_addrOK ha).symm.trans h

theorem fetchOperands_inv {i : Instr} (h : s.Inv) (hp : s.phase = .fetchOperands) (hd : decode s.ir = .ok i)
    (hdec : s.dec = some (recordOf i)) : ∃ t, phaseOutcome (fetchOperands (recordOf i).right s) = .next t ∧ t.Inv := by
  have hrun : s.phase ≠ .halted := by simp [hp]
  have hword : s.phase.holdsWord = true := by simp [hp, Phase.holdsWord]
  rcases fetchOperands_cases (recordOf i).right s with hf | ⟨rs, -, ha, hf⟩
  · refine ⟨_, by rw [hf, phaseOutcome_ok], ?_⟩
    refine inv_of_running (by simp) (h.noRecord hrun) h.codeWf h.dataWf h.loopsWf (h.counts_le hrun)
      (fun _ => h.fetched hword) (fun _ => ⟨i, hd, hdec⟩) (fun _ j hj => ?_)
    cases hd.symm.trans hj
    exact operandLatched_of_fetchOperands hf
  · exact ⟨_, by rw [hf, phaseOutcome_error], h.halts hrun hword (by simp) (fun _ => ha)⟩

theorem executeInstr_inv (i : Instr) (h : s.Inv) (hp : s.phase = .executeInstr) :
    ∃ t, phaseOutcome (executeInstr (recordOf i).cat (effectOf i) s) = .next t ∧ t.Inv := by
  have hrun : s.phase ≠ .halted := by simp [hp]
  rcases executeInstr_cases i s with ⟨t, he, hcode, hloops, hhalt, hdata⟩ | ⟨a, ha, he⟩
  · refine ⟨_, by rw [he, phaseOutcome_ok], ?_⟩
    have hwf : t.data.wf = true := by
      rcases hdata with hd | ⟨a, v, hd⟩ <;> rw [hd]
      · exact h.dataWf
      · exact writeWord_wf v (wordIndex_lt a) h.dataWf
    exact inv_of_running (by simp) (hhalt.trans (h.noRecord hrun)) (hcode ▸ h.codeWf) hwf (hloops ▸ h.loopsWf)
      (fun a => hloops ▸ h.counts_le hrun a) (fun hw => by cases hw) (fun hr => by cases hr) (fun he => by cases he)
  · exact ⟨_, by rw [he, phaseOutcome_error], h.halts hrun (by simp [hp, Phase.holdsWord]) (by simp) (fun _ => ha)⟩

/-- From a state of the invariant a phase step answers a state of the invariant. -/
theorem stepPhase_of_inv (h : s.Inv) : ∃ t, stepPhase s = .next t ∧ t.Inv := by
  cases hp : s.phase with
  | halted => exact ⟨s, stepPhase_of_halted hp, h⟩
  | fetchInstr => exact ⟨_, stepPhase_of_fetchInstr hp, fetchInstr_inv h hp⟩
  | decodeInstr =>
    rw [stepPhase_of_decodeInstr hp]
    exact decodeInstr_inv h hp
  | calculateEa =>
    obtain ⟨i, hd, -⟩ := h.decoded (by simp [hp, Phase.holdsRecord])
    have ha : addrOK s.pc = true := addrOK_of_decode_codeRead (h.fetched (by simp [hp, Phase.holdsWord]) ▸ hd)
    rw [stepPhase_of_calculateEa hp ha]
    exact calculateEa_inv h hp ha
  | fetchOperands =>
    obtain ⟨i, hd, hdec⟩ := h.decoded (by simp [hp, Phase.holdsRecord])
    rw [stepPhase_of_fetchOperands hp hdec]
    exact fetchOperands_inv h hp hd hdec
  | executeInstr =>
    obtain ⟨i, -, hdec⟩ := h.decoded (by simp [hp, Phase.holdsRecord])
    rw [stepPhase_of_executeInstr hp hdec]
    exact executeInstr_inv i h hp
  | writeBack => exact ⟨_, stepPhase_of_writeBack hp, writeBack_inv h hp⟩

theorem finishInstr_of_inv (n : Nat) (h : s.Inv) : ∃ t, finishInstr n s = .next t ∧ t.Inv := by
  induction n generalizing s with
  | zero => exact ⟨s, rfl, h⟩
  | succ n ih =>
    cases hb : s.atBoundary with
    | true => exact ⟨s, finishInstr_of_boundary hb, h⟩
    | false =>
      obtain ⟨t, hs, ht⟩ := stepPhase_of_inv h
      rw [finishInstr_succ_of_next hb hs]
      exact ih ht

/-- From a state of the invariant a step, being the phases left of the instruction, answers a state of the invariant. -/
theorem step_of_inv (h : s.Inv) : ∃ t, step s = .next t ∧ t.Inv := by
  cases hb : s.atBoundary with
  | false =>
    rw [step_of_inside hb]
    exact finishInstr_of_inv 5 h
  | true =>
    have hp : s.phase = .fetchInstr ∨ s.phase = .halted := by simpa [State.atBoundary] using hb
    rcases hp with hp | hp
    · rw [step_eq_finishInstr hp]
      exact finishInstr_of_inv 5 (fetchInstr_inv h hp)
    · exact ⟨s, step_of_halted hp, h⟩

/-! ### The invariant along a run -/

/-- Settles O45: a step is the phases left of the instruction, and each keeps the invariant. -/
theorem stepKeepsTheRunInvariant : Obligations.StepKeepsTheRunInvariant := by
  intro s t h hs
  obtain ⟨t', ht, hinv⟩ := step_of_inv h
  cases ht.symm.trans hs
  exact hinv

/-- Settles O46, phase by phase. -/
theorem phaseStepKeepsTheRunInvariant : Obligations.PhaseStepKeepsTheRunInvariant := by
  intro s t h hs
  obtain ⟨t', ht, hinv⟩ := stepPhase_of_inv h
  cases ht.symm.trans hs
  exact hinv

/-- Settles O49: the invariant gives every phase the record and the counter it needs. -/
theorem noFaultInAnyRun : Obligations.NoFaultInAnyRun := by
  intro s h
  obtain ⟨t, ht, -⟩ := step_of_inv h
  obtain ⟨u, hu, -⟩ := stepPhase_of_inv h
  exact ⟨⟨t, ht⟩, ⟨u, hu⟩⟩

end Sys2Proof.Machine
end

section
/-! SUPPORT. Decoded records and well-formed ones (10_state.md R49, 30_encoding.md R111). -/

namespace Sys2Proof

/-- A record is well formed exactly when it names an instruction, category by category and type by type (R108, R110). -/
theorem wellFormed_eq_isSome_toInstr (d : Decoded) : d.wellFormed = d.toInstr.isSome := by
  obtain ⟨c, t, rl, right⟩ := d
  rcases bitVec3_cases c with rfl | rfl | rfl | rfl | rfl | rfl | rfl | rfl <;>
    rcases bitVec3_cases t with rfl | rfl | rfl | rfl | rfl | rfl | rfl | rfl <;>
      cases right <;> rfl

theorem wellFormed_iff_recordOf (d : Decoded) : d.wellFormed = true ↔ ∃ i, recordOf i = d := by
  rw [wellFormed_eq_isSome_toInstr, Option.isSome_iff_exists]
  exact exists_congr (toInstr_eq_some_iff d)

theorem decodeRecord_encode (i : Instr) : decodeRecord (encode i) = .ok (recordOf i) := by
  cases i <;> simp [decodeRecord, encode, Decoded.pack, recordOf, RightOperand.field, rightForm]

/-- A decoded record is the record of the instruction its word stands for. -/
theorem exists_decode_of_decodeRecord {w : Word} {d : Decoded} (h : decodeRecord w = .ok d) :
    ∃ i, decode w = .ok i ∧ recordOf i = d := by
  cases hd : decode w with
  | error e =>
    rw [(decode_error_iff w e).1 hd] at h
    cases h
  | ok i =>
    rw [(decode_eq_ok_iff w i).1 hd] at h
    cases h
    exact ⟨i, rfl, rfl⟩

/-- Settles O9: both sides say that the record is some instruction's. -/
theorem decodedRecordsAreTheWellFormedOnes : Obligations.DecodedRecordsAreTheWellFormedOnes := by
  refine ⟨fun d => ?_, fun w d => exists_decode_of_decodeRecord⟩
  rw [wellFormed_iff_recordOf]
  constructor
  · rintro ⟨i, rfl⟩
    exact ⟨encode i, decodeRecord_encode i⟩
  · rintro ⟨w, hw⟩
    obtain ⟨i, -, hi⟩ := exists_decode_of_decodeRecord hw
    exact ⟨i, hi⟩

end Sys2Proof
end

section
/-! SUPPORT. The register an instruction writes (10_state.md R33). -/

namespace Sys2Proof.Machine

/-- An instruction with a destination writes that register and nothing else before the pc update. -/
theorem effectOf_of_destination {i : Instr} {rl : RegIdx} (h : destination i = some rl) (s : State) :
    ∃ v, effectOf i s = .ok { state := s.setReg rl v, jumped := false } := by
  cases i <;> cases h <;> exact ⟨_, rfl⟩

theorem moveToMem_regs {rl : RegIdx} {v : Word} {s : State} {e : Effect} (h : moveToMem rl v s = .ok e) :
    e.state.regs = s.regs := by
  cases ha : addrOK (storeAddress rl s) with
  | true =>
    rw [moveToMem_of_addrOK v s ha] at h
    cases h
    rfl
  | false =>
    rw [moveToMem_of_not_addrOK v s ha] at h
    cases h

theorem branchIf_regs {p : Word → Word → Bool} {rl : RegIdx} {s : State} {e : Effect} (h : branchIf p rl s = .ok e) :
    e.state.regs = s.regs := by
  unfold branchIf at h
  split at h <;> cases h <;> rfl

/-- A store or a branch writes no register. -/
theorem effectOf_regs_of_no_destination {i : Instr} (hd : destination i = none) {s : State} {e : Effect}
    (h : effectOf i s = .ok e) : e.state.regs = s.regs := by
  cases i
  case movsti | movst => exact moveToMem_regs h
  case jr =>
    cases h
    rfl
  case beq | bne | blt | bgt | ble | bge => exact branchIf_regs h
  all_goals cases hd

theorem effectOf_readReg_of_not_destination {i : Instr} {r : RegIdx} (hr : destination i ≠ some r) {s : State} {e : Effect}
    (h : effectOf i s = .ok e) : e.state.readReg r = s.readReg r := by
  cases hd : destination i with
  | none => simp only [State.readReg, effectOf_regs_of_no_destination hd h]
  | some rl =>
    obtain ⟨v, he⟩ := effectOf_of_destination hd s
    cases he.symm.trans h
    exact State.readReg_setReg_of_ne s v fun hrl => hr (hrl ▸ hd)

/-- Settles O28: of everything a meaning can answer, only the effect's own register write changes a register. -/
theorem onlyTheDestinationRegisterChanges : Obligations.OnlyTheDestinationRegisterChanges := by
  intro i s t r hexec hchanged
  by_contra hr
  apply hchanged
  rcases exec_cases i s with ⟨rs, -, -, hx⟩ | ⟨a, -, -, hx⟩ | ⟨u, -, -, hx⟩ | ⟨u, he, -, hx⟩ <;>
    cases hx.symm.trans hexec
  · rfl
  · rfl
  · rfl
  · exact effectOf_readReg_of_not_destination hr he

end Sys2Proof.Machine
end

section
/-! SUPPORT. Launch (10_state.md R55, 20_memory.md R77, R78): the reset values, and the invariant of a run at the start. -/

namespace Sys2Proof.Machine

theorem codeOfImage_wf {bytes : List Byte} {m : Memory} (h : codeOfImage bytes = some m) : m.wf = true := by
  unfold codeOfImage at h
  split at h
  · rename_i hlen
    cases h
    exact loadBytes_wf bytes (by omega) rfl
  · cases h

theorem dataOfLines_wf {lines : List (List Char)} {m : Memory} (h : dataOfLines lines = some m) : m.wf = true := by
  unfold dataOfLines at h
  split at h
  · cases h
    exact loadWords_wf _ (by simp) rfl
  · cases h

theorem launch_inv {c d : Memory} (hc : c.wf = true) (hd : d.wf = true) : (State.launch c d).Inv :=
  inv_of_running (fun h => by cases h) rfl hc hd rfl (fun a => Nat.zero_le _) (fun h => by cases h) (fun h => by cases h)
    (fun h => by cases h)

theorem readWord_nil (a : Nat) : readWord [] a = 0xFFFF := by
  change wordOfBytes Config.fillByte Config.fillByte = 0xFFFF
  decide

/-- Settles O48: every image the loaders accept is in canonical form. -/
theorem launchMeetsTheRunInvariant : Obligations.LaunchMeetsTheRunInvariant :=
  fun _ _ _ _ hc hd => launch_inv (codeOfImage_wf hc) (dataOfLines_wf hd)

/-- Settles O47: reset is the launch of empty images. -/
theorem resetMeetsTheRunInvariant : Obligations.ResetMeetsTheRunInvariant :=
  launch_inv (c := []) (d := []) rfl rfl

/-- Settles O51, field by field. -/
theorem launchPutsEveryPieceOfStateAtItsResetValue : Obligations.LaunchPutsEveryPieceOfStateAtItsResetValue := by
  refine ⟨fun c d => ⟨fun r => ?_, rfl, fun _ => rfl, rfl, rfl, rfl, rfl, rfl, rfl, rfl⟩, rfl,
    fun a => ⟨readWord_nil a, readWord_nil a⟩⟩
  exact Vector.getElem_replicate r.isLt

end Sys2Proof.Machine
end

section
/-! SUPPORT. What the latches and the halt record held before an instruction does not show after it (10_state.md R54). -/

namespace Sys2Proof.Machine

variable {s u : State} {i : Instr}

/-! ### The step at an instruction boundary, case by case -/

theorem step_of_decode_error {e : DecodeError} (h : s.phase = .fetchInstr) (hd : decode (codeRead s.code s.pc) = .error e) :
    step s = .next (raiseHalt .illegalOpcode 0 (fetchInstr s)) := by
  rcases step_of_fetch h with ⟨_, -, hs⟩ | ⟨j, hj, -⟩ | ⟨j, hj, -⟩
  · exact hs
  · cases hd.symm.trans hj
  · cases hd.symm.trans hj

theorem step_of_past_threshold (h : s.phase = .fetchInstr) (hd : decode (codeRead s.code s.pc) = .ok i)
    (hc : Config.loopThreshold ≤ loopCount s.loops s.pc.toNat) :
    step s = .next (raiseHalt .infiniteLoop 0 ((s.prepared i).setPhase .calculateEa)) := by
  rcases step_of_fetch h with ⟨e, he, -⟩ | ⟨j, hj, -, hs⟩ | ⟨j, -, hlt, -⟩
  · cases hd.symm.trans he
  · cases hd.symm.trans hj
    exact hs
  · omega

theorem step_of_below_threshold (h : s.phase = .fetchInstr) (hd : decode (codeRead s.code s.pc) = .ok i)
    (hc : loopCount s.loops s.pc.toNat < Config.loopThreshold) : step s = exec i (s.prepared i) := by
  rcases step_of_fetch h with ⟨e, he, -⟩ | ⟨j, -, hge, -⟩ | ⟨j, hj, -, hs⟩
  · cases hd.symm.trans he
  · omega
  · cases hd.symm.trans hj
    exact hs

/-! ### States of equal views -/

theorem view_eq_iff : s.view = u.view ↔
    s.regs = u.regs ∧ s.pc = u.pc ∧ s.code = u.code ∧ s.data = u.data ∧ s.loops = u.loops := by
  simp [State.view]

theorem readReg_of_view_eq (h : s.view = u.view) (r : RegIdx) : s.readReg r = u.readReg r := by
  obtain ⟨hregs, -⟩ := view_eq_iff.1 h
  simp only [State.readReg, hregs]

theorem view_setReg (h : s.view = u.view) (r : RegIdx) (v : Word) : (s.setReg r v).view = (u.setReg r v).view := by
  simp_all [view_eq_iff]

theorem view_setPc (h : s.view = u.view) (v : Word) : (s.setPc v).view = (u.setPc v).view := by
  simp_all [view_eq_iff]

theorem view_setData (h : s.view = u.view) (m : Memory) : (s.setData m).view = (u.setData m).view := by
  simp_all [view_eq_iff]

/-- Two states that neither a program nor the outcome of a run tells apart (R54, R281): the halt record counts only in a
halted core. -/
structure SameObserved (s u : State) : Prop where
  view : s.view = u.view
  phase : s.phase = u.phase
  halt : s.phase = .halted → s.halt = u.halt

theorem raiseHalt_sameObserved (hv : s.view = u.view) (hir : s.ir = u.ir) (r : HaltReason) (a : Word) :
    SameObserved (raiseHalt r a s) (raiseHalt r a u) where
  view := hv
  phase := rfl
  halt _ := by
    obtain ⟨-, hpc, -⟩ := view_eq_iff.1 hv
    simp [hir, hpc]

/-! ### Effects of equal views -/

/-- Two effects that complete alike or halt alike. -/
def SameEffect (x y : Except State Effect) : Prop :=
  (∃ t v j, x = .ok { state := t, jumped := j } ∧ y = .ok { state := v, jumped := j } ∧ t.view = v.view) ∨
  (∃ h k, x = .error h ∧ y = .error k ∧ SameObserved h k)

theorem sameEffect_setReg (hv : s.view = u.view) (rl : RegIdx) {v w : Word} (h : v = w) :
    SameEffect (.ok { state := s.setReg rl v, jumped := false }) (.ok { state := u.setReg rl w, jumped := false }) :=
  .inl ⟨_, _, _, rfl, rfl, h ▸ view_setReg hv rl v⟩

theorem moveToMem_congr (hv : s.view = u.view) (hir : s.ir = u.ir) (rl : RegIdx) {v w : Word} (h : v = w) :
    SameEffect (moveToMem rl v s) (moveToMem rl w u) := by
  subst h
  have haddr : storeAddress rl s = storeAddress rl u := readReg_of_view_eq hv rl
  obtain ⟨-, -, -, hdata, -⟩ := view_eq_iff.1 hv
  cases ha : addrOK (storeAddress rl s) with
  | true =>
    refine .inl ⟨_, _, _, moveToMem_of_addrOK v s ha, moveToMem_of_addrOK v u (haddr ▸ ha), ?_⟩
    rw [haddr, hdata]
    exact view_setData hv _
  | false =>
    refine .inr ⟨_, _, moveToMem_of_not_addrOK v s ha, moveToMem_of_not_addrOK v u (haddr ▸ ha), ?_⟩
    rw [haddr]
    exact raiseHalt_sameObserved hv hir _ _

theorem branchIf_congr (hv : s.view = u.view) (ho : s.opnd = u.opnd) (p : Word → Word → Bool) (rl : RegIdx) :
    SameEffect (branchIf p rl s) (branchIf p rl u) := by
  obtain ⟨-, hpc, -⟩ := view_eq_iff.1 hv
  unfold branchIf
  rw [readReg_of_view_eq hv rl, readReg_of_view_eq hv 0, hpc, ho]
  split
  · exact .inl ⟨_, _, _, rfl, rfl, view_setPc hv _⟩
  · exact .inl ⟨_, _, _, rfl, rfl, hv⟩

/-- The forms whose operand FETCH_OPERANDS latches (R240). -/
def latchesOperand : RightOperand → Bool
  | .imm _ | .memAtReg _ => true
  | .reg _ | .absent => false

/-- An effect reads the view, `ir` for the record of a halt, and the operand latch only where FETCH_OPERANDS wrote it. -/
theorem effectOf_congr (i : Instr) (hv : s.view = u.view) (hir : s.ir = u.ir)
    (ho : latchesOperand (recordOf i).right = true → s.opnd = u.opnd) : SameEffect (effectOf i s) (effectOf i u) := by
  have hreg := readReg_of_view_eq hv
  cases i
  case addi | subi | andi | ori | xori => exact sameEffect_setReg hv _ (by rw [hreg, ho rfl])
  case add | sub | and | or | xor => exact sameEffect_setReg hv _ (by rw [hreg, hreg])
  case movi | movld => exact sameEffect_setReg hv _ (ho rfl)
  case movsti => exact moveToMem_congr hv hir _ (ho rfl)
  case movst => exact moveToMem_congr hv hir _ (hreg _)
  case shr | shl => exact sameEffect_setReg hv _ (by rw [hreg])
  case jr rl => exact .inl ⟨_, _, _, rfl, rfl, hreg rl ▸ view_setPc hv _⟩
  case beq | bne | blt | bgt | ble | bge => exact branchIf_congr hv (ho rfl) _ _

/-! ### A whole instruction from equal views -/

theorem latchedState_opnd_congr (hv : s.view = u.view) (hl : latchesOperand (recordOf i).right = true) :
    (latchedState i s).opnd = (latchedState i u).opnd := by
  obtain ⟨-, -, -, hdata, -⟩ := view_eq_iff.1 hv
  rw [latchedState_opnd, latchedState_opnd]
  cases hr : (recordOf i).right with
  | imm rf => rfl
  | memAtReg rs => simp only [latchedOperand, hdata, readReg_of_view_eq hv rs]
  | reg rs => simp [hr, latchesOperand] at hl
  | absent => simp [hr, latchesOperand] at hl

theorem fetchOperands_congr (right : RightOperand) (hv : s.view = u.view) :
    (fetchOperands right s = .ok ((s.setOpnd (latchedOperand right s)).setPhase .executeInstr) ∧
      fetchOperands right u = .ok ((u.setOpnd (latchedOperand right u)).setPhase .executeInstr)) ∨
    (∃ a, fetchOperands right s = .error (raiseHalt .illegalAddress a s) ∧
      fetchOperands right u = .error (raiseHalt .illegalAddress a u)) := by
  cases right with
  | imm rf => exact .inl ⟨rfl, rfl⟩
  | reg rs => exact .inl ⟨rfl, rfl⟩
  | absent => exact .inl ⟨rfl, rfl⟩
  | memAtReg rs =>
    have haddr := readReg_of_view_eq hv rs
    cases ha : addrOK (s.readReg rs) with
    | true => exact .inl ⟨fetchOperands_memAtReg_of_addrOK ha, fetchOperands_memAtReg_of_addrOK (haddr ▸ ha)⟩
    | false =>
      exact .inr ⟨_, fetchOperands_memAtReg_of_not_addrOK ha,
        haddr ▸ fetchOperands_memAtReg_of_not_addrOK (haddr ▸ ha)⟩

theorem advancePc_view (cat : BitVec 3) (j : Bool) (hv : s.view = u.view) :
    (advancePc cat { state := s, jumped := j }).view = (advancePc cat { state := u, jumped := j }).view := by
  obtain ⟨-, hpc, -⟩ := view_eq_iff.1 hv
  unfold advancePc
  split
  · exact hv
  · rw [hpc]
    exact view_setPc hv _

/-- From equal views and words an instruction's own phases lead to states that nothing observed tells apart. -/
theorem exec_congr (i : Instr) (hv : s.view = u.view) (hir : s.ir = u.ir) :
    ∃ s' u', exec i s = .next s' ∧ exec i u = .next u' ∧ SameObserved s' u' := by
  rw [exec_eq_runInstr, exec_eq_runInstr]
  rcases fetchOperands_congr (recordOf i).right hv with ⟨hs, hu⟩ | ⟨a, hs, hu⟩
  · replace hs : fetchOperands (recordOf i).right s = .ok (latchedState i s) := hs
    replace hu : fetchOperands (recordOf i).right u = .ok (latchedState i u) := hu
    rw [runInstr_of_latched hs, runInstr_of_latched hu]
    have heffect : SameEffect (effectOf i (latchedState i s)) (effectOf i (latchedState i u)) :=
      effectOf_congr i hv hir (latchedState_opnd_congr hv)
    rcases heffect with ⟨t, v, j, ht, hv', htv⟩ | ⟨h, k, hh, hk, hsame⟩
    · refine ⟨_, _, by rw [executeInstr_ok ht], by rw [executeInstr_ok hv'], ?_⟩
      exact ⟨advancePc_view _ j htv, rfl, fun h => by cases h⟩
    · exact ⟨h, k, by rw [executeInstr_error hh], by rw [executeInstr_error hk], hsame⟩
  · exact ⟨_, _, runInstr_of_load_halt hs, runInstr_of_load_halt hu, raiseHalt_sameObserved hv hir _ _⟩

/-- From equal views a whole step does: the fetch makes the words equal. -/
theorem step_congr (hs : s.phase = .fetchInstr) (hu : u.phase = .fetchInstr) (hv : s.view = u.view) :
    ∃ s' u', step s = .next s' ∧ step u = .next u' ∧ SameObserved s' u' := by
  obtain ⟨hregs, hpc, hcode, hdata, hloops⟩ := view_eq_iff.1 hv
  have hword : codeRead u.code u.pc = codeRead s.code s.pc := by rw [hcode, hpc]
  have hcount : loopCount u.loops u.pc.toNat = loopCount s.loops s.pc.toNat := by rw [hloops, hpc]
  cases hd : decode (codeRead s.code s.pc) with
  | error e =>
    exact ⟨_, _, step_of_decode_error hs hd, step_of_decode_error hu (hword ▸ hd),
      raiseHalt_sameObserved (s := fetchInstr s) (u := fetchInstr u) hv hword.symm _ _⟩
  | ok i =>
    have hprepared : (s.prepared i).view = (u.prepared i).view := by
      simp [view_eq_iff, hregs, hpc, hcode, hdata, hloops]
    by_cases hc : loopCount s.loops s.pc.toNat < Config.loopThreshold
    · rw [step_of_below_threshold hs hd hc, step_of_below_threshold hu (hword ▸ hd) (hcount ▸ hc)]
      exact exec_congr i hprepared hword.symm
    · rw [not_lt] at hc
      exact ⟨_, _, step_of_past_threshold hs hd hc, step_of_past_threshold hu (hword ▸ hd) (hcount ▸ hc),
        raiseHalt_sameObserved hprepared hword.symm _ _⟩

theorem SameObserved.outcome (h : SameObserved s u) (hp : s.phase = .halted) : s.outcome = u.outcome := by
  obtain ⟨hregs, -, -, hdata, -⟩ := view_eq_iff.1 h.view
  simp [State.outcome, hregs, hdata, h.halt hp]

/-- Settles O50: the step reads the view alone, and writes every latch before it reads it. -/
theorem latchesAreNotObservable : Obligations.LatchesAreNotObservable := by
  intro s u hs hu hv
  obtain ⟨s', u', hs', hu', hsame⟩ := step_congr hs hu hv
  exact ⟨s', u', hs', hu', hsame.view, hsame.phase, fun hp => ⟨hsame.halt hp, hsame.outcome hp⟩⟩

end Sys2Proof.Machine
end

section
/-! SUPPORT. Accesses to memory (20_memory.md): the address decoder, the fetch outside code memory, and what the loads and
stores answer. -/

namespace Sys2Proof.Machine

variable {s : State} {i : Instr}

/-! ### The address decoder (R66) and the fetch (R70) -/

theorem not_addrOK_iff (a : Word) : addrOK a = false ↔ 1024 ≤ a.toNat := by
  rw [← Bool.not_eq_true, addrOK_iff, not_lt]

theorem wordIndex_eq_mod (a : Word) : wordIndex a = a.toNat % 1024 := by
  simp [wordIndex, BitVec.extractLsb'_toNat]

/-- Read signed, an address the decoder accepts is the same number: bit 15 is among the bits it checks. -/
theorem addrOK_iff_toInt (a : Word) : addrOK a = true ↔ 0 ≤ a.toInt ∧ a.toInt < 1024 := by
  have := a.isLt
  rw [addrOK_iff, BitVec.toInt_eq_toNat_cond]
  split <;> omega

/-- Settles O20: bits 15..10 are 0 exactly below 1024, and both accesses check them first. -/
theorem addressDecoderAcceptsTenBits : Obligations.AddressDecoderAcceptsTenBits := by
  intro a
  refine ⟨by simp [addrOK], addrOK_iff a, addrOK_iff_toInt a, wordIndex_eq_mod a, wordIndex_of_addrOK, fun ha s v => ?_⟩
  exact ⟨⟨_, memRead_of_not_addrOK s ha, rfl, rfl, rfl⟩, ⟨_, memWrite_of_not_addrOK v s ha, rfl, rfl, rfl⟩⟩

theorem codeRead_of_addrOK (m : Memory) {a : Word} (ha : addrOK a = true) : codeRead m a = readWord m a.toNat := by
  rw [codeRead, if_pos ha, wordIndex_of_addrOK ha]

theorem decode_fillWord : decode 0xFFFF = .error (.illegalOpcode 0xFFFF) := by decide

/-- Settles O38: outside code memory the fetch reads the fill word, which is illegal (R114). -/
theorem fetchOutsideCodeMemoryHalts : Obligations.FetchOutsideCodeMemoryHalts := by
  refine ⟨fun s hpc => codeRead_of_addrOK s.code ((addrOK_iff s.pc).2 hpc), fun s hp hpc => ?_⟩
  have hword : codeRead s.code s.pc = 0xFFFF := codeRead_of_not_addrOK s.code ((not_addrOK_iff s.pc).2 hpc)
  have hillegal : decode (codeRead s.code s.pc) = .error (.illegalOpcode 0xFFFF) := by rw [hword, decode_fillWord]
  refine ⟨_, step_of_decode_error hp hillegal, raiseHalt_phase _ _ _, by simp [hword], by simp [view_eq_iff]⟩

/-! ### What an instruction answers, from its operand phase and its effect -/

/-- An instruction whose effect neither halts nor jumps completes with `pc` one more (R244). -/
theorem exec_of_effect_ok {t : State} (hf : fetchOperands (recordOf i).right s = .ok (latchedState i s))
    (he : effectOf i (latchedState i s) = .ok { state := t, jumped := false }) (hpc : t.pc = s.pc) :
    exec i s = .next ((t.setPc (s.pc + 1)).setPhase .fetchInstr) := by
  rw [exec_eq_runInstr, runInstr_of_latched hf, executeInstr_ok he, advancePc_not_jumped, hpc]
  rfl

/-- An instruction whose effect halts answers that halt. -/
theorem exec_of_effect_error {h : State} (hf : fetchOperands (recordOf i).right s = .ok (latchedState i s))
    (he : effectOf i (latchedState i s) = .error h) : exec i s = .next h := by
  rw [exec_eq_runInstr, runInstr_of_latched hf, executeInstr_error he]

/-! ### Loads and stores (R71, R72) -/

theorem latchedState_movld_opnd (rd ra : RegIdx) (s : State) :
    (latchedState (.movld rd ra) s).opnd = readWord s.data (wordIndex (s.readReg ra)) := rfl

theorem exec_movld_of_addrOK {rd ra : RegIdx} (ha : addrOK (s.readReg ra) = true) :
    exec (.movld rd ra) s = .next ((((latchedState (.movld rd ra) s).setReg rd
      (readWord s.data (wordIndex (s.readReg ra)))).setPc (s.pc + 1)).setPhase .fetchInstr) := by
  rw [← latchedState_movld_opnd rd]
  exact exec_of_effect_ok (fetchOperands_memAtReg_of_addrOK ha) rfl rfl

/-- Where `s` latches its operand, the instruction's whole effect is the store of `v` at the address register `rl` holds. -/
structure Stores (i : Instr) (rl : RegIdx) (v : Word) (s : State) : Prop where
  operand : fetchOperands (recordOf i).right s = .ok (latchedState i s)
  effect : effectOf i (latchedState i s) = moveToMem rl v (latchedState i s)

theorem stores_movsti (rl : RegIdx) (imm : BitVec 6) (s : State) : Stores (.movsti rl imm) rl (sext16 imm) s :=
  ⟨rfl, rfl⟩

theorem stores_movst (rl rs : RegIdx) (s : State) : Stores (.movst rl rs) rl (s.readReg rs) s := ⟨rfl, rfl⟩

/-- The state a store of `v` completes in. -/
def storedState (i : Instr) (rl : RegIdx) (v : Word) (s : State) : State :=
  (((latchedState i s).setData (writeWord s.data (wordIndex (storeAddress rl s)) v)).setPc (s.pc + 1)).setPhase .fetchInstr

@[simp] theorem storedState_data (i : Instr) (rl : RegIdx) (v : Word) (s : State) :
    (storedState i rl v s).data = writeWord s.data (wordIndex (storeAddress rl s)) v := rfl

theorem Stores.exec_of_addrOK {rl : RegIdx} {v : Word} (h : Stores i rl v s) (ha : addrOK (storeAddress rl s) = true) :
    exec i s = .next (storedState i rl v s) :=
  exec_of_effect_ok h.operand (h.effect.trans (moveToMem_of_addrOK v (latchedState i s) ha)) rfl

theorem Stores.exec_of_not_addrOK {rl : RegIdx} {v : Word} (h : Stores i rl v s)
    (ha : addrOK (storeAddress rl s) = false) :
    exec i s = .next (raiseHalt .illegalAddress (storeAddress rl s) (latchedState i s)) :=
  exec_of_effect_error h.operand (h.effect.trans (moveToMem_of_not_addrOK v (latchedState i s) ha))

/-- A word is its two bytes. -/
theorem readWord_congr {m m' : Memory} {k : Nat}
    (h : ∀ b, b = 2 * k ∨ b = 2 * k + 1 → readByte m b = readByte m' b) : readWord m k = readWord m' k := by
  rw [readWord, readWord, h _ (.inl rfl), h _ (.inr rfl)]

/-- Settles O19: the load reads the word the store wrote, the two registers holding the same address. -/
theorem storeThenLoadGivesTheValueBack : Obligations.StoreThenLoadGivesTheValueBack := by
  intro rl rs rd ra s t u hlt hstore haddr hkept
  have ha : addrOK (s.readReg rl) = true := (addrOK_iff _).2 hlt
  have hindex := wordIndex_of_addrOK ha
  cases ((stores_movst rl rs s).exec_of_addrOK ha).symm.trans hstore
  refine ⟨_, exec_movld_of_addrOK (haddr ▸ ha), ?_⟩
  calc _ = readWord u.data (wordIndex (u.readReg ra)) := State.readReg_setReg_self _ rd _
    _ = readWord (writeWord s.data (s.readReg rl).toNat (s.readReg rs)) (s.readReg rl).toNat := by
        rw [haddr, hindex, readWord_congr hkept, storedState_data, storeAddress, hindex]
    _ = s.readReg rs := readWord_writeWord_self _ _ _

end Sys2Proof.Machine
end

section
/-! SUPPORT. Code memory through steps (20_memory.md R79). -/

namespace Sys2Proof.Machine

variable {s t : State}

/-- The phases that read `dec` answer a next state only from a record the decoder gives (R49). -/
theorem exists_record_of_stepPhase (hp : s.phase = .fetchOperands ∨ s.phase = .executeInstr)
    (h : stepPhase s = .next t) : ∃ i, s.dec = some (recordOf i) := by
  cases hi : s.dec.bind Decoded.toInstr with
  | none => rcases hp with hp | hp <;> simp [stepPhase, hp, hi] at h
  | some i =>
    obtain ⟨d, hd, hdi⟩ := Option.bind_eq_some_iff.1 hi
    exact ⟨i, by rw [hd, (toInstr_eq_some_iff d i).1 hdi]⟩

/-- CALCULATE_EA answers a next state only where `pc` has a counter (R45). -/
theorem addrOK_of_stepPhase (hp : s.phase = .calculateEa) (h : stepPhase s = .next t) : addrOK s.pc = true := by
  by_contra ha
  simp [stepPhase, hp, ha] at h

/-- No phase writes code memory. -/
theorem stepPhase_code (h : stepPhase s = .next t) : t.code = s.code := by
  cases hp : s.phase with
  | halted =>
    cases (stepPhase_of_halted hp).symm.trans h
    rfl
  | fetchInstr =>
    cases (stepPhase_of_fetchInstr hp).symm.trans h
    rfl
  | decodeInstr =>
    rw [stepPhase_of_decodeInstr hp] at h
    cases hd : decode s.ir with
    | error e =>
      rw [decodeInstr_of_error hd] at h
      cases h
      rfl
    | ok i =>
      rw [decodeInstr_of_ok hd] at h
      cases h
      rfl
  | calculateEa =>
    rw [stepPhase_of_calculateEa hp (addrOK_of_stepPhase hp h)] at h
    rcases calculateEa_cases s with ⟨-, he⟩ | ⟨-, he⟩ <;> rw [he] at h <;> cases h <;> rfl
  | fetchOperands =>
    obtain ⟨i, hd⟩ := exists_record_of_stepPhase (.inl hp) h
    rw [stepPhase_of_fetchOperands hp hd] at h
    rcases fetchOperands_cases (recordOf i).right s with he | ⟨rs, -, -, he⟩ <;> rw [he] at h <;> cases h <;> rfl
  | executeInstr =>
    obtain ⟨i, hd⟩ := exists_record_of_stepPhase (.inr hp) h
    rw [stepPhase_of_executeInstr hp hd] at h
    rcases executeInstr_cases i s with ⟨u, he, hcode, -⟩ | ⟨a, -, he⟩ <;> rw [he] at h <;> cases h
    · exact hcode
    · rfl
  | writeBack =>
    cases (stepPhase_of_writeBack hp).symm.trans h
    rfl

/-! ### What every phase keeps, every step and every run keeps -/

section Keeps

variable {P : State → Prop}

theorem finishInstr_keeps (hP : ∀ u v, P u → stepPhase u = .next v → P v) (n : Nat) (hs : P s)
    (h : finishInstr n s = .next t) : P t := by
  induction n generalizing s with
  | zero =>
    cases h
    exact hs
  | succ n ih =>
    cases hb : s.atBoundary with
    | true =>
      cases (finishInstr_of_boundary hb).symm.trans h
      exact hs
    | false =>
      cases hu : stepPhase s with
      | next u =>
        rw [finishInstr_succ_of_next hb hu] at h
        exact ih (hP s u hs hu) h
      | fault r => simp [finishInstr, hb, hu] at h
      | refused r => simp [finishInstr, hb, hu] at h

/-- A step is nothing, or a fetch and the phases left of the instruction, or only these. -/
theorem step_keeps (hP : ∀ u v, P u → stepPhase u = .next v → P v) (hs : P s) (h : step s = .next t) : P t := by
  by_cases hhalt : s.phase = .halted
  · cases (step_of_halted hhalt).symm.trans h
    exact hs
  by_cases hfetch : s.phase = .fetchInstr
  · rw [step_eq_finishInstr hfetch] at h
    exact finishInstr_keeps hP 5 (hP s _ hs (stepPhase_of_fetchInstr hfetch)) h
  · rw [step_of_inside (by simp [State.atBoundary, hfetch, hhalt])] at h
    exact finishInstr_keeps hP 5 hs h

theorem run_keeps (hP : ∀ u v, P u → step u = .next v → P v) (n : Nat) (hs : P s)
    (h : Host.Core.run core n s = .next t) : P t := by
  induction n generalizing s with
  | zero =>
    cases h
    exact hs
  | succ n ih =>
    cases hu : step s with
    | next u =>
      rw [run_succ_of_next hu] at h
      exact ih (hP s u hs hu) h
    | fault r => simp [Host.Core.run, core, hu] at h
    | refused r => simp [Host.Core.run, core, hu] at h

end Keeps

theorem step_code (h : step s = .next t) : t.code = s.code :=
  step_keeps (P := fun u => u.code = s.code) (fun _ _ hu huv => (stepPhase_code huv).trans hu) rfl h

/-- Settles O44: no phase writes code memory, so no step and no run does. -/
theorem codeMemoryIsNeverWritten : Obligations.CodeMemoryIsNeverWritten :=
  fun n s _ h => run_keeps (P := fun u => u.code = s.code) (fun _ _ hu huv => (step_code huv).trans hu) n rfl h

end Sys2Proof.Machine
end

section
/-! SUPPORT. Which instructions reach which memory (20_memory.md R62). -/

namespace Sys2Proof.Machine

variable {f : State → State} {i : Instr} {s t : State}

/-! ### Exchanging a part of the state no instruction's own phases touch -/

/-- `f` leaves the registers, `pc` and the operand latch, and may come before or after any write of these or of the
phase. -/
structure Exchange (f : State → State) : Prop where
  readReg : ∀ s r, (f s).readReg r = s.readReg r
  pc : ∀ s, (f s).pc = s.pc
  opnd : ∀ s, (f s).opnd = s.opnd
  setReg : ∀ s r v, (f s).setReg r v = f (s.setReg r v)
  setPc : ∀ s v, (f s).setPc v = f (s.setPc v)
  setOpnd : ∀ s v, (f s).setOpnd v = f (s.setOpnd v)
  setPhase : ∀ s p, (f s).setPhase p = f (s.setPhase p)

theorem exchange_setCode (c : Memory) : Exchange (·.setCode c) := by constructor <;> intros <;> rfl

theorem exchange_setData (m : Memory) : Exchange (·.setData m) := by constructor <;> intros <;> rfl

/-- `f` put through the state an effect leaves or halts in. -/
def mapEffect (f : State → State) : Except State Effect → Except State Effect
  | .ok e => .ok { e with state := f e.state }
  | .error h => .error (f h)

/-- `f` put through the state a phase leaves or halts in. -/
def mapPhase (f : State → State) : Except State State → Except State State
  | .ok t => .ok (f t)
  | .error h => .error (f h)

theorem advancePc_exchange (hf : Exchange f) (cat : BitVec 3) (t : State) (j : Bool) :
    advancePc cat { state := f t, jumped := j } = f (advancePc cat { state := t, jumped := j }) := by
  unfold advancePc
  split
  · rfl
  · rw [hf.pc, hf.setPc]

theorem executeInstr_exchange (hf : Exchange f) (cat : BitVec 3) {eff : State → Except State Effect}
    (he : eff (f s) = mapEffect f (eff s)) : executeInstr cat eff (f s) = mapPhase f (executeInstr cat eff s) := by
  cases hs : eff s with
  | ok e =>
    rw [hs] at he
    rw [executeInstr_ok hs, executeInstr_ok he, advancePc_exchange hf, hf.setPhase]
    rfl
  | error h =>
    rw [hs] at he
    rw [executeInstr_error hs, executeInstr_error he]
    rfl

/-- An instruction whose operand phase and effect carry the exchange along does so as a whole. -/
theorem exec_exchange (hf : Exchange f)
    (hop : ∀ u, fetchOperands (recordOf i).right (f u) = mapPhase f (fetchOperands (recordOf i).right u))
    (he : ∀ u, effectOf i (f u) = mapEffect f (effectOf i u)) (h : exec i s = .next t) : exec i (f s) = .next (f t) := by
  rw [exec_eq_runInstr] at h ⊢
  have hopf := hop s
  cases hs : fetchOperands (recordOf i).right s with
  | error u =>
    rw [hs] at hopf
    cases (runInstr_of_load_halt hs).symm.trans h
    exact runInstr_of_load_halt hopf
  | ok u =>
    rw [hs] at hopf
    rw [runInstr_of_latched hs] at h
    rw [runInstr_of_latched hopf]
    have hx := executeInstr_exchange hf (recordOf i).cat (he u)
    cases hv : executeInstr (recordOf i).cat (effectOf i) u with
    | error v =>
      rw [hv] at h hx
      rw [hx]
      cases h
      rfl
    | ok v =>
      rw [hv] at h hx
      rw [hx]
      cases h
      exact congrArg _ (hf.setPhase v _)

/-! ### Instructions that do not reach data memory -/

theorem fetchOperands_exchange (hf : Exchange f) {right : RightOperand} (hr : ∀ rs, right ≠ .memAtReg rs) (s : State) :
    fetchOperands right (f s) = mapPhase f (fetchOperands right s) := by
  cases right with
  | imm rf => exact congrArg Except.ok (by rw [hf.setOpnd, hf.setPhase])
  | reg rs => exact congrArg Except.ok (hf.setPhase s _)
  | absent => exact congrArg Except.ok (hf.setPhase s _)
  | memAtReg rs => exact absurd rfl (hr rs)

/-- An effect that writes one register carries the exchange along when it writes the same value. -/
theorem setReg_exchange (hf : Exchange f) (rl : RegIdx) {v w : Word} (h : v = w) :
    (.ok { state := (f s).setReg rl v, jumped := false } : Except State Effect) =
      mapEffect f (.ok { state := s.setReg rl w, jumped := false }) := by
  rw [hf.setReg, h]
  rfl

theorem branchIf_exchange (hf : Exchange f) (p : Word → Word → Bool) (rl : RegIdx) (s : State) :
    branchIf p rl (f s) = mapEffect f (branchIf p rl s) := by
  unfold branchIf
  rw [hf.readReg, hf.readReg, hf.pc, hf.opnd, hf.setPc]
  split <;> rfl

theorem effectOf_exchange (hf : Exchange f) (hmovsti : ∀ rl imm, i ≠ .movsti rl imm)
    (hmovst : ∀ rl rs, i ≠ .movst rl rs) (s : State) : effectOf i (f s) = mapEffect f (effectOf i s) := by
  cases i
  case addi | subi | andi | ori | xori => exact setReg_exchange hf _ (by rw [hf.readReg, hf.opnd])
  case add | sub | and | or | xor => exact setReg_exchange hf _ (by rw [hf.readReg, hf.readReg])
  case movi | movld => exact setReg_exchange hf _ (hf.opnd s)
  case movsti rl imm => exact absurd rfl (hmovsti rl imm)
  case movst rl rs => exact absurd rfl (hmovst rl rs)
  case shr | shl => exact setReg_exchange hf _ (by rw [hf.readReg])
  case jr rl => exact congrArg Except.ok (by rw [hf.readReg, hf.setPc])
  case beq | bne | blt | bgt | ble | bge => exact branchIf_exchange hf _ _ s

/-- MOVLD alone has a memory operand (R111). -/
theorem right_memAtReg_iff (i : Instr) (rs : RegIdx) : (recordOf i).right = .memAtReg rs ↔ ∃ rl, i = .movld rl rs := by
  cases i <;> simp [recordOf]

/-- No instruction but a store changes data memory: exchanging that memory for itself shows its effect keeps it. -/
theorem exec_data_of_not_store (hmovsti : ∀ rl imm, i ≠ .movsti rl imm) (hmovst : ∀ rl rs, i ≠ .movst rl rs)
    (h : exec i s = .next t) : t.data = s.data := by
  have hsame : effectOf i (latchedState i s) = mapEffect (·.setData s.data) (effectOf i (latchedState i s)) :=
    effectOf_exchange (exchange_setData s.data) hmovsti hmovst (latchedState i s)
  rcases exec_cases i s with ⟨rs, -, -, hx⟩ | ⟨a, -, -, hx⟩ | ⟨u, -, -, hx⟩ | ⟨u, he, -, hx⟩ <;>
    cases hx.symm.trans h
  · rfl
  · rfl
  · rfl
  · have hu : u = u.setData s.data := by simpa [he, mapEffect] using hsame
    exact (congrArg State.data hu :)

/-! ### Exchanging code memory -/

theorem fetchOperands_setCode (right : RightOperand) (c : Memory) (s : State) :
    fetchOperands right (s.setCode c) = mapPhase (·.setCode c) (fetchOperands right s) := by
  cases right with
  | imm rf => rfl
  | reg rs => rfl
  | absent => rfl
  | memAtReg rs =>
    cases ha : addrOK (s.readReg rs) with
    | true =>
      rw [fetchOperands_memAtReg_of_addrOK ha, fetchOperands_memAtReg_of_addrOK (s := s.setCode c) ha]
      rfl
    | false =>
      rw [fetchOperands_memAtReg_of_not_addrOK ha, fetchOperands_memAtReg_of_not_addrOK (s := s.setCode c) ha]
      rfl

theorem moveToMem_setCode (rl : RegIdx) (v : Word) (c : Memory) (s : State) :
    moveToMem rl v (s.setCode c) = mapEffect (·.setCode c) (moveToMem rl v s) := by
  cases ha : addrOK (storeAddress rl s) with
  | true =>
    rw [moveToMem_of_addrOK v s ha, moveToMem_of_addrOK v (s.setCode c) ha]
    rfl
  | false =>
    rw [moveToMem_of_not_addrOK v s ha, moveToMem_of_not_addrOK v (s.setCode c) ha]
    rfl

theorem effectOf_setCode (i : Instr) (c : Memory) (s : State) :
    effectOf i (s.setCode c) = mapEffect (·.setCode c) (effectOf i s) := by
  cases i
  case movsti rl imm => exact moveToMem_setCode rl s.opnd c s
  case movst rl rs => exact moveToMem_setCode rl (s.readReg rs) c s
  all_goals exact effectOf_exchange (exchange_setCode c) (by simp) (by simp) s

/-! ### Exchanging data memory under a store -/

/-- Both stores latch and store without reading data memory. -/
theorem exists_stores_setData {rl : RegIdx} (h : (∃ imm, i = .movsti rl imm) ∨ ∃ rs, i = .movst rl rs) (s : State) :
    ∃ v, ∀ m, Stores i rl v (s.setData m) ∧ latchedState i (s.setData m) = (latchedState i s).setData m := by
  rcases h with ⟨imm, rfl⟩ | ⟨rs, rfl⟩
  · exact ⟨sext16 imm, fun m => ⟨stores_movsti rl imm (s.setData m), rfl⟩⟩
  · exact ⟨s.readReg rs, fun m => ⟨stores_movst rl rs (s.setData m), rfl⟩⟩

/-- The two bytes a word store writes do not depend on the memory it writes into, and it keeps every other byte. -/
theorem readByte_writeWord_exchange (m m' : Memory) (k : Nat) (v : Word) (a : Nat) :
    readByte (writeWord m' k v) a = if a = 2 * k ∨ a = 2 * k + 1 then readByte (writeWord m k v) a else readByte m' a := by
  split
  next h =>
    rcases h with rfl | rfl
    · rw [readByte_writeWord_high, readByte_writeWord_high]
    · rw [readByte_writeWord_low, readByte_writeWord_low]
  next h =>
    rw [not_or] at h
    exact readByte_writeWord_of_ne m' v h.1 h.2

theorem exec_store_setData {rl : RegIdx} (hi : (∃ imm, i = .movsti rl imm) ∨ ∃ rs, i = .movst rl rs)
    (h : exec i s = .next t) (m : Memory) : ∃ m', exec i (s.setData m) = .next (t.setData m') ∧
      (t.phase = .halted → m' = m) ∧
      (t.phase ≠ .halted → ∀ a, readByte m' a =
        if a = 2 * wordIndex (storeAddress rl s) ∨ a = 2 * wordIndex (storeAddress rl s) + 1 then readByte t.data a
        else readByte m a) := by
  obtain ⟨v, hv⟩ := exists_stores_setData hi s
  obtain ⟨hs, -⟩ := hv s.data
  obtain ⟨hm, hlatched⟩ := hv m
  change Stores i rl v s at hs
  cases ha : addrOK (storeAddress rl s) with
  | true =>
    cases (hs.exec_of_addrOK ha).symm.trans h
    refine ⟨writeWord m (wordIndex (storeAddress rl s)) v, ?_, (fun hp => by cases hp), fun _ a => ?_⟩
    · rw [hm.exec_of_addrOK ha, storedState, hlatched]
      rfl
    · exact readByte_writeWord_exchange s.data m _ v a
  | false =>
    cases (hs.exec_of_not_addrOK ha).symm.trans h
    refine ⟨m, ?_, fun _ => rfl, fun hp => absurd rfl hp⟩
    rw [hm.exec_of_not_addrOK ha, hlatched]
    rfl

/-- Settles O21: an instruction's phases after the fetch never touch code memory, and only the loads and stores touch data
memory. -/
theorem onlyMovesReachDataAndOnlyFetchReachesCode : Obligations.OnlyMovesReachDataAndOnlyFetchReachesCode := by
  refine ⟨fun i s t c h => ?_, fun i s t m hmovld hmovsti hmovst h => ?_, fun i rl s t m hi h => exec_store_setData hi h m,
    fun i s t hmovsti hmovst h a => by rw [exec_data_of_not_store hmovsti hmovst h], fun s m => rfl⟩
  · exact exec_exchange (f := (·.setCode c)) (exchange_setCode c) (fetchOperands_setCode _ c) (effectOf_setCode i c) h
  · have hr : ∀ rs, (recordOf i).right ≠ .memAtReg rs := fun rs hrs =>
      have ⟨rl, hi⟩ := (right_memAtReg_iff i rs).1 hrs
      hmovld rl rs hi
    exact exec_exchange (f := (·.setData m)) (exchange_setData m) (fetchOperands_exchange (exchange_setData m) hr)
      (effectOf_exchange (exchange_setData m) hmovsti hmovst) h

end Sys2Proof.Machine
end

section
/-! SUPPORT. What the images put into the memories (20_memory.md R77, R78), and the word placed for the next fetch
(log 11). -/

namespace Sys2Proof.Machine

/-! ### The code image (R77) -/

/-- A loaded byte is the image's, and a byte the image lacks is the fill byte. -/
theorem readByte_loadBytes_nil (bs : List Byte) (a : Nat) : readByte (loadBytes 0 bs []) a = (bs[a]?).getD 0xFF := by
  rw [readByte_loadBytes]
  split
  next h =>
    have hlt : a < bs.length := by omega
    simp [hlt]
  next h =>
    rw [List.getElem?_eq_none (by omega)]
    rfl

/-- Settles O52: word `a` is bytes `2a` and `2a + 1` of the image. -/
theorem codeImageIsCopiedVerbatim : Obligations.CodeImageIsCopiedVerbatim := by
  intro bytes hlen
  have himage : codeOfImage bytes = some (loadBytes 0 bytes []) := if_pos hlen
  refine ⟨_, himage, codeOfImage_wf himage, fun a _ => ?_⟩
  rw [readWord, readByte_loadBytes_nil, readByte_loadBytes_nil, wordOfBytes]

/-! ### The data image (R78) -/

/-- A word below 1024 is the image's, and a word the image does not reach is the fill word. -/
theorem readWord_loadWords_take (ws : List Word) {a : Nat} (ha : a < 1024) :
    readWord (loadWords 0 (ws.take Config.dataWords) []) a = (ws[a]?).getD 0xFFFF := by
  have hget : (ws.take Config.dataWords)[a]? = ws[a]? := List.getElem?_take_of_lt ha
  rw [readWord_loadWords, Nat.sub_zero, hget, readWord_nil]
  split
  next h =>
    rw [List.length_take] at h
    simp [show a < ws.length by omega]
  next h =>
    have hlen : ws.length ≤ a := by
      rw [List.length_take, Config.dataWords] at h
      omega
    rw [List.getElem?_eq_none hlen]
    rfl

/-- The digits of a word read back as that word, before whatever the rest of the line gives. -/
theorem wordsOfLine_hex4 (w : Word) {rest : List Char} {ws : List Word} (h : wordsOfLine rest = some ws) :
    wordsOfLine ((hex4 w).toList ++ rest) = some (w :: ws) := by
  rw [hex4, String.toList_ofList]
  simp only [hex2, List.cons_append, List.nil_append, wordsOfLine, hexDigit_hexChar, h, word_of_digits]

theorem wordsOfLines_cons {l : List Char} {ls : List (List Char)} {ws vs : List Word} (hl : wordsOfLine l = some ws)
    (hls : wordsOfLines ls = some vs) : wordsOfLines (l :: ls) = some (ws ++ vs) := by
  simp [wordsOfLines, hl, hls]

/-- Settles O53: the lines' groups in order are the words, those past word 1023 dropped. -/
theorem dataImageFillsWordsInOrder : Obligations.DataImageFillsWordsInOrder := by
  refine ⟨fun lines ws hws => ?_, fun w _ _ => wordsOfLine_hex4 w, fun _ _ _ _ => wordsOfLines_cons, rfl, rfl⟩
  have himage : dataOfLines lines = some (loadWords 0 (ws.take Config.dataWords) []) := by simp [dataOfLines, hws]
  exact ⟨_, himage, dataOfLines_wf himage, fun a => readWord_loadWords_take ws⟩

/-! ### Placing a word (log 11) -/

theorem ofNat_toNat_mod (w : Word) : BitVec.ofNat 16 (w.toNat % 2 ^ 16) = w := by
  rw [Nat.mod_eq_of_lt w.isLt, BitVec.ofNat_toNat, BitVec.setWidth_eq]

theorem withFetchWord_toNat (s : State) (w : Word) : s.withFetchWord 16 w.toNat = placeWord s w := by
  rw [State.withFetchWord, ofNat_toNat_mod]

theorem placeWord_pc_of_addrOK {s : State} (w : Word) (ha : addrOK s.pc = true) : (placeWord s w).pc = s.pc :=
  if_pos ha

/-- A placed word always has an address inside code memory. -/
theorem addrOK_placeWord_pc (s : State) (w : Word) : addrOK (placeWord s w).pc = true := by
  change addrOK (if addrOK s.pc then s.pc else 0) = true
  split
  · assumption
  · decide

theorem placeWord_code (s : State) (w : Word) :
    (placeWord s w).code = writeWord s.code (wordIndex (placeWord s w).pc) w := rfl

theorem codeRead_placeWord (s : State) (w : Word) : codeRead (placeWord s w).code (placeWord s w).pc = w := by
  have ha := addrOK_placeWord_pc s w
  rw [codeRead_of_addrOK _ ha, placeWord_code, wordIndex_of_addrOK ha, readWord_writeWord_self]

theorem placeWord_bytesKeptBut {s : State} (w : Word) (ha : addrOK s.pc = true) :
    BytesKeptBut s.pc.toNat s.code (placeWord s w).code := by
  intro a hh hl
  rw [placeWord_code, placeWord_pc_of_addrOK w ha, wordIndex_of_addrOK ha]
  exact readByte_writeWord_of_ne _ w hh hl

/-- The table reading of a word is the decoder's. -/
theorem decodeTableWord_eq_some_iff (w : Word) (i : Instr) : decodeTableWord 16 w.toNat = some i ↔ decode w = .ok i := by
  rw [decodeTableWord, ofNat_toNat_mod]
  cases hd : decode w <;> simp [decodeBytes, wordOfBytes_highByte_lowByte, hd]

/-- Settles O55: the word goes to the address the next fetch reads. -/
theorem placedWordIsTheOneFetched : Obligations.PlacedWordIsTheOneFetched := by
  refine ⟨fun s w => ?_, decodeTableWord_eq_some_iff⟩
  rw [withFetchWord_toNat]
  refine ⟨rfl, codeRead_placeWord s w, fun _ => rfl, rfl, rfl, fun hpc => ?_⟩
  have ha : addrOK s.pc = true := (addrOK_iff s.pc).2 hpc
  exact ⟨placeWord_pc_of_addrOK w ha, placeWord_bytesKeptBut w ha⟩

end Sys2Proof.Machine
end

section
/-! SUPPORT. Words, bytes and fields (30_encoding.md R101 to R105). -/

namespace Sys2Proof

/-! ### The two-byte derivation (R102) -/

theorem toNat_wordOfBytes (l r : Byte) : (wordOfBytes l r).toNat = l.toNat * 256 + r.toNat := by
  rw [wordOfBytes, BitVec.toNat_append, ← Nat.shiftLeft_add_eq_or_of_lt r.isLt, Nat.shiftLeft_eq]

theorem toNat_fieldCat (w : Word) : (fieldCat w).toNat = w.toNat / 8192 % 8 := by
  simp [fieldCat, Nat.shiftRight_eq_div_pow]

theorem toNat_fieldTyp (w : Word) : (fieldTyp w).toNat = w.toNat / 1024 % 8 := by
  simp [fieldTyp, Nat.shiftRight_eq_div_pow]

theorem val_fieldRl (w : Word) : (fieldRl w).val = w.toNat / 64 % 16 := by
  simp [fieldRl, Nat.shiftRight_eq_div_pow]

theorem toNat_fieldRf (w : Word) : (fieldRf w).toNat = w.toNat % 64 := by
  simp [fieldRf]

/-- Settles O3: as numbers, the word is `256 L + R`, a shift is a quotient and a mask a remainder. -/
theorem fieldsFollowTheTwoByteDerivation : Obligations.FieldsFollowTheTwoByteDerivation := by
  intro l r
  have hl := l.isLt
  have hr := r.isLt
  have mask2 (x : Nat) : x &&& 0b11 = x % 4 := Nat.and_two_pow_sub_one_eq_mod x 2
  have mask3 (x : Nat) : x &&& 0b111 = x % 8 := Nat.and_two_pow_sub_one_eq_mod x 3
  have mask6 (x : Nat) : x &&& 0b111111 = x % 64 := Nat.and_two_pow_sub_one_eq_mod x 6
  refine ⟨?_, ?_, ?_, ?_, rfl, rfl, rfl, rfl⟩
  · rw [toNat_fieldCat, toNat_wordOfBytes, mask3, Nat.shiftRight_eq_div_pow]
    omega
  · rw [toNat_fieldTyp, toNat_wordOfBytes, mask3, Nat.shiftRight_eq_div_pow]
    omega
  · have hlow : (r.toNat >>> 6) &&& 0b11 < 2 ^ 2 := by
      rw [mask2]
      omega
    rw [← Nat.shiftLeft_add_eq_or_of_lt hlow, val_fieldRl, toNat_wordOfBytes, mask2, mask2,
      Nat.shiftRight_eq_div_pow, Nat.shiftLeft_eq]
    omega
  · rw [toNat_fieldRf, toNat_wordOfBytes, mask6]
    omega

/-! ### Fields under a mask -/

/-- Two words that agree under a mask agree in every field the mask keeps whole. -/
theorem extractLsb'_eq_of_and_eq {w v m : Word} {k n : Nat} (h : w &&& m = v &&& m)
    (hm : m.extractLsb' k n = BitVec.allOnes n) : w.extractLsb' k n = v.extractLsb' k n := by
  have hfield := congrArg (BitVec.extractLsb' k n) h
  rwa [BitVec.extractLsb'_and, BitVec.extractLsb'_and, hm, BitVec.and_allOnes, BitVec.and_allOnes] at hfield

theorem packWord_fields (w : Word) : packWord (fieldCat w) (fieldTyp w) (fieldRl w) (fieldRf w) = w := by
  change w.extractLsb' 13 3 ++ w.extractLsb' 10 3 ++ w.extractLsb' 6 4 ++ w.extractLsb' 0 6 = w
  rw [BitVec.extractLsb'_append_extractLsb'_eq_extractLsb' (show 13 = 10 + 3 from rfl),
    BitVec.extractLsb'_append_extractLsb'_eq_extractLsb' (show 10 = 6 + 4 from rfl),
    BitVec.extractLsb'_append_extractLsb'_eq_extractLsb' (show 6 = 0 + 6 from rfl)]
  exact BitVec.extractLsb'_eq_self

/-- The mask of the opcode table keeps category and type and clears the rest (R110). -/
theorem packWord_and_opcodeMask (c t : BitVec 3) (rl : RegIdx) (rf : BitVec 6) :
    packWord c t rl rf &&& 0xFC00 = packWord c t 0 0 := by
  have hmask : (0xFC00 : Word) = BitVec.allOnes 3 ++ BitVec.allOnes 3 ++ 0#4 ++ 0#6 := by decide
  rw [hmask, packWord, BitVec.and_append, BitVec.and_append, BitVec.and_append, BitVec.and_allOnes, BitVec.and_allOnes,
    BitVec.and_zero, BitVec.and_zero]
  rfl

theorem and_opcodeMask (w : Word) : w &&& 0xFC00 = packWord (fieldCat w) (fieldTyp w) 0 0 := by
  conv_lhs => rw [← packWord_fields w]
  exact packWord_and_opcodeMask _ _ _ _

theorem and_opcodeMask_eq_iff (w : Word) (c t : BitVec 3) :
    w &&& 0xFC00 = packWord c t 0 0 ↔ fieldCat w = c ∧ fieldTyp w = t := by
  rw [and_opcodeMask]
  constructor
  · intro h
    exact ⟨by simpa using congrArg fieldCat h, by simpa using congrArg fieldTyp h⟩
  · rintro ⟨rfl, rfl⟩
    rfl

end Sys2Proof
end

section
/-! SUPPORT. The decoder by category and type (30_encoding.md R110 to R113): these choose the instruction, and the other
fields fill in its operands. -/

namespace Sys2Proof

/-! ### An instruction with its operands replaced -/

/-- The instruction of the same row with the operands of the given fields, each where the row has it. -/
def Instr.withFields (rl : RegIdx) (rf : BitVec 6) (rs : RegIdx) : Instr → Instr
  | .addi _ _ => .addi rl rf
  | .add _ _ => .add rl rs
  | .subi _ _ => .subi rl rf
  | .sub _ _ => .sub rl rs
  | .andi _ _ => .andi rl rf
  | .and _ _ => .and rl rs
  | .ori _ _ => .ori rl rf
  | .or _ _ => .or rl rs
  | .xori _ _ => .xori rl rf
  | .xor _ _ => .xor rl rs
  | .movi _ _ => .movi rl rf
  | .movld _ _ => .movld rl rs
  | .movsti _ _ => .movsti rl rf
  | .movst _ _ => .movst rl rs
  | .shr _ => .shr rl
  | .shl _ => .shl rl
  | .jr _ => .jr rl
  | .beq _ _ => .beq rl rf
  | .bne _ _ => .bne rl rf
  | .blt _ _ => .blt rl rf
  | .bgt _ _ => .bgt rl rf
  | .ble _ _ => .ble rl rf
  | .bge _ _ => .bge rl rf

/-- The operand of the same form with the given fields. -/
def RightOperand.withFields (rf : BitVec 6) (rs : RegIdx) : RightOperand → RightOperand
  | .imm _ => .imm rf
  | .reg _ => .reg rs
  | .memAtReg _ => .memAtReg rs
  | .absent => .absent

theorem recordOf_withFields (rl : RegIdx) (rf : BitVec 6) (rs : RegIdx) (i : Instr) :
    recordOf (i.withFields rl rf rs) = { recordOf i with rl := rl, right := (recordOf i).right.withFields rf rs } := by
  cases i <;> rfl

theorem mnemonic_withFields (rl : RegIdx) (rf : BitVec 6) (rs : RegIdx) (i : Instr) :
    (i.withFields rl rf rs).mnemonic = i.mnemonic := by
  cases i <;> rfl

theorem format_withFields (rl : RegIdx) (rf : BitVec 6) (rs : RegIdx) (i : Instr) :
    (i.withFields rl rf rs).format = i.format := by
  cases i <;> rfl

/-! ### What decodes, and to what -/

theorem rightForm_recordOf (i : Instr) (rf : BitVec 6) (rs : RegIdx) :
    rightForm (recordOf i).cat (recordOf i).typ rf rs = some ((recordOf i).right.withFields rf rs) := by
  cases i <;> rfl

/-- A word of an instruction's category and type decodes to that instruction with the word's own operands. -/
theorem decode_of_pair {w : Word} {i : Instr} (hc : fieldCat w = (recordOf i).cat) (ht : fieldTyp w = (recordOf i).typ) :
    decode w = .ok (i.withFields (fieldRl w) (fieldRf w) (fieldRs w)) := by
  rw [decode_eq_ok_iff, recordOf_withFields, decodeRecord, hc, ht, rightForm_recordOf]

theorem pair_of_decode {w : Word} {i : Instr} (h : decode w = .ok i) :
    fieldCat w = (recordOf i).cat ∧ fieldTyp w = (recordOf i).typ := by
  rw [decode_eq_ok_iff, decodeRecord] at h
  split at h
  · rw [← Except.ok.inj h]
    exact ⟨rfl, rfl⟩
  · cases h

/-- Category and type choose the instruction and the other fields fill in its operands. -/
theorem decode_eq_ok_iff_fields (w : Word) (i : Instr) : decode w = .ok i ↔
    fieldCat w = (recordOf i).cat ∧ fieldTyp w = (recordOf i).typ ∧
      i.withFields (fieldRl w) (fieldRf w) (fieldRs w) = i := by
  constructor
  · intro h
    obtain ⟨hc, ht⟩ := pair_of_decode h
    exact ⟨hc, ht, Except.ok.inj ((decode_of_pair hc ht).symm.trans h)⟩
  · rintro ⟨hc, ht, hi⟩
    exact hi ▸ decode_of_pair hc ht

/-- The decoder does not extend an immediate: the record holds the word's own field (R106). -/
theorem eq_fieldRf_of_right_imm {w : Word} {d : Decoded} {rf : BitVec 6} (h : decodeRecord w = .ok d)
    (hr : d.right = .imm rf) : rf = fieldRf w := by
  obtain ⟨i, hd, rfl⟩ := exists_decode_of_decodeRecord h
  obtain ⟨-, -, hi⟩ := (decode_eq_ok_iff_fields w i).1 hd
  have hright : (recordOf i).right.withFields (fieldRf w) (fieldRs w) = (recordOf i).right := by
    conv_rhs => rw [← hi, recordOf_withFields]
  rw [hr] at hright
  exact (RightOperand.imm.inj hright).symm

/-! ### What does not decode -/

theorem rightForm_eq_none_iff (c t : BitVec 3) (rf : BitVec 6) (rs : RegIdx) :
    rightForm c t rf rs = none ↔ t ∉ legalTypes c := by
  rcases bitVec3_cases c with rfl | rfl | rfl | rfl | rfl | rfl | rfl | rfl <;>
    rcases bitVec3_cases t with rfl | rfl | rfl | rfl | rfl | rfl | rfl | rfl <;>
      simp [rightForm, legalTypes]

/-- The decoder's one refusal of a word is ILLEGAL_OPCODE of that word, on a pair that is no row (R113). -/
theorem decode_eq_error_iff (w : Word) (e : DecodeError) :
    decode w = .error e ↔ e = .illegalOpcode w ∧ fieldTyp w ∉ legalTypes (fieldCat w) := by
  rw [decode_error_iff, decodeRecord, ← rightForm_eq_none_iff _ _ (fieldRf w) (fieldRs w)]
  cases rightForm (fieldCat w) (fieldTyp w) (fieldRf w) (fieldRs w) with
  | none => simp [eq_comm]
  | some right => simp

/-- The pairs that are no row are those of R113's table. -/
theorem not_mem_legalTypes_iff (c t : BitVec 3) : t ∉ legalTypes c ↔
    (c.toNat ≤ 4 ∧ 2 ≤ t.toNat) ∨ (c.toNat = 5 ∧ t.toNat ∈ [2, 3, 6, 7]) ∨ (c.toNat = 6 ∧ 2 ≤ t.toNat) ∨
      (c.toNat = 7 ∧ t.toNat = 7) := by
  revert c t
  decide

/-! ### The opcode table (R110) -/

/-- The row of an instruction. -/
def rowOf (i : Instr) : OpcodeRow := ⟨i.mnemonic, packWord (recordOf i).cat (recordOf i).typ 0 0, i.format⟩

/-- One instruction of each row, in the table's order, its operands 0. -/
def zeroInstrs : List Instr :=
  [.addi 0 0, .add 0 0, .subi 0 0, .sub 0 0, .andi 0 0, .and 0 0, .ori 0 0, .or 0 0, .xori 0 0, .xor 0 0, .movi 0 0,
   .movld 0 0, .movsti 0 0, .movst 0 0, .shr 0, .shl 0, .jr 0, .beq 0 0, .bne 0 0, .blt 0 0, .bgt 0 0, .ble 0 0, .bge 0 0]

theorem opcodeRows_eq_map_rowOf : opcodeRows = zeroInstrs.map rowOf := by decide

theorem withFields_zero_mem_zeroInstrs (i : Instr) : i.withFields 0 0 0 ∈ zeroInstrs := by
  cases i <;> simp [Instr.withFields, zeroInstrs]

theorem rowOf_withFields (rl : RegIdx) (rf : BitVec 6) (rs : RegIdx) (i : Instr) :
    rowOf (i.withFields rl rf rs) = rowOf i := by
  rw [rowOf, mnemonic_withFields, format_withFields, recordOf_withFields, rowOf]

/-- The rows of the table are exactly the instructions' rows. -/
theorem mem_opcodeRows_iff (r : OpcodeRow) : r ∈ opcodeRows ↔ ∃ i, rowOf i = r := by
  rw [opcodeRows_eq_map_rowOf, List.mem_map]
  constructor
  · rintro ⟨i, -, hi⟩
    exact ⟨i, hi⟩
  · rintro ⟨i, hi⟩
    exact ⟨_, withFields_zero_mem_zeroInstrs i, (rowOf_withFields 0 0 0 i).trans hi⟩

/-- Under the table's mask a word matches an instruction's row exactly when it has its category and type. -/
theorem matches_rowOf_iff (w : Word) (i : Instr) :
    w &&& 0xFC00 = (rowOf i).pattern ↔ fieldCat w = (recordOf i).cat ∧ fieldTyp w = (recordOf i).typ :=
  and_opcodeMask_eq_iff w _ _

theorem opcodeRows_pattern_nodup : (opcodeRows.map OpcodeRow.pattern).Nodup := by decide

/-! ### Format R (R105) -/

theorem withFields_of_format_R {i : Instr} (hf : i.format = .R) (rl : RegIdx) (rf rf' : BitVec 6) (rs : RegIdx) :
    i.withFields rl rf rs = i.withFields rl rf' rs := by
  cases i
  case add | sub | and | or | xor | movld | movst => rfl
  all_goals cases hf

theorem right_withFields_of_format_R {i : Instr} (hf : i.format = .R) (rl : RegIdx) (rf : BitVec 6) (rs : RegIdx) :
    (recordOf (i.withFields rl rf rs)).right = .reg rs ∨ (recordOf (i.withFields rl rf rs)).right = .memAtReg rs := by
  cases i
  case add | sub | and | or | xor | movst => exact .inl rfl
  case movld => exact .inr rfl
  all_goals cases hf

end Sys2Proof
end

section
/-! SUPPORT. The statements of 30_encoding.md. -/

namespace Sys2Proof

/-- Settles O1: the packed record's fields read back, so its word decodes to the same record. -/
theorem decodeGivesBackEveryEncodedInstruction : Obligations.DecodeGivesBackEveryEncodedInstruction :=
  fun i => (decode_eq_ok_iff (encode i) i).2 (decodeRecord_encode i)

/-- Settles O4: a word matches an instruction's row exactly when it decodes to that instruction but for the operands. -/
theorem decoderAgreesWithTheOpcodeTable : Obligations.DecoderAgreesWithTheOpcodeTable := by
  refine ⟨rfl, fun w i h => ?_, fun w r hr hw => ?_, fun w r q hr hq hwr hwq => ?_⟩
  · exact ⟨rowOf i, (mem_opcodeRows_iff _).2 ⟨i, rfl⟩, (matches_rowOf_iff w i).2 (pair_of_decode h), rfl⟩
  · obtain ⟨i, rfl⟩ := (mem_opcodeRows_iff r).1 hr
    obtain ⟨hc, ht⟩ := (matches_rowOf_iff w i).1 hw
    exact ⟨_, decode_of_pair hc ht, mnemonic_withFields _ _ _ i, format_withFields _ _ _ i⟩
  · exact List.inj_on_of_nodup_map opcodeRows_pattern_nodup hr hq (hwr.symm.trans hwq)

/-- Settles O5: the decoder refuses by one name, and equal categories and types choose the same row. -/
theorem verdictDependsOnCategoryAndTypeOnly : Obligations.VerdictDependsOnCategoryAndTypeOnly := by
  have transfer {w v : Word} (hc : fieldCat w = fieldCat v) (ht : fieldTyp w = fieldTyp v) :
      (∃ i, decode w = .ok i) → ∃ j, decode v = .ok j := fun ⟨_, h⟩ =>
    have ⟨hci, hti⟩ := pair_of_decode h
    ⟨_, decode_of_pair (hc.symm.trans hci) (ht.symm.trans hti)⟩
  refine ⟨fun w => ?_, fun w v hc ht => ⟨transfer hc ht, transfer hc.symm ht.symm⟩⟩
  cases hd : decode w with
  | ok i => exact .inl ⟨i, rfl⟩
  | error e =>
    obtain ⟨rfl, -⟩ := (decode_eq_error_iff w e).1 hd
    exact .inr rfl

/-- Settles O6: the mask 0xFFFC keeps the category, the type and both register fields. -/
theorem lowTwoBitsOfRegisterFormsSelectNothing : Obligations.LowTwoBitsOfRegisterFormsSelectNothing := by
  intro w v i hf hd hmask
  obtain ⟨hc, ht, hi⟩ := (decode_eq_ok_iff_fields w i).1 hd
  have hcat : fieldCat w = fieldCat v := extractLsb'_eq_of_and_eq hmask (by decide)
  have htyp : fieldTyp w = fieldTyp v := extractLsb'_eq_of_and_eq hmask (by decide)
  have hrl : fieldRl w = fieldRl v := congrArg BitVec.toFin (extractLsb'_eq_of_and_eq hmask (by decide))
  have hrs : fieldRs w = fieldRs v := congrArg BitVec.toFin (extractLsb'_eq_of_and_eq hmask (by decide))
  constructor
  · rw [decode_eq_ok_iff_fields, ← hcat, ← htyp, ← hrl, ← hrs, withFields_of_format_R hf _ _ (fieldRf w)]
    exact ⟨hc, ht, hi⟩
  · have hright := right_withFields_of_format_R hf (fieldRl w) (fieldRf w) (fieldRs w)
    rwa [hi] at hright

/-- Settles O8: the refused pairs are those outside R110's rows, which are R113's table. -/
theorem illegalWordsAreThoseOfTheTable : Obligations.IllegalWordsAreThoseOfTheTable := by
  intro w
  rw [decode_eq_error_iff, and_iff_right rfl]
  exact not_mem_legalTypes_iff (fieldCat w) (fieldTyp w)

end Sys2Proof
end

section
/-! SUPPORT. The immediate after the decoder (30_encoding.md R106), and the instruction of the word 0x0000 (R117). -/

namespace Sys2Proof.Machine

theorem toInt_sext16 (rf : BitVec 6) : (sext16 rf).toInt = rf.toInt := BitVec.toInt_signExtend_of_le (by decide)

/-- Settles O11: the record's immediate is the word's own field, and its sign extension keeps the signed value. -/
theorem immediateIsSignExtendedAfterDecode : Obligations.ImmediateIsSignExtendedAfterDecode := by
  refine ⟨fun w d rf => eq_fieldRf_of_right_imm, fun rf s => ⟨_, rfl, toInt_sext16 rf, ?_, ?_⟩⟩
  · exact (toInt_sext16 rf).symm ▸ BitVec.le_toInt rf
  · exact (toInt_sext16 rf).symm ▸ BitVec.toInt_le

theorem State.setReg_readReg (s : State) (r : RegIdx) : s.setReg r (s.readReg r) = s := by
  simp [State.setReg, State.readReg]

/-- ADDI of 0 writes back the register's own value. -/
theorem exec_addi_zero (rl : RegIdx) (s : State) :
    exec (.addi rl 0) s = .next (((latchedState (.addi rl 0) s).setPc (s.pc + 1)).setPhase .fetchInstr) := by
  have hsum : s.readReg rl + sext16 0 = s.readReg rl := by
    rw [show sext16 0 = 0#16 by decide, BitVec.add_zero]
  have heffect : effectOf (.addi rl 0) (latchedState (.addi rl 0) s) =
      .ok { state := (latchedState (.addi rl 0) s).setReg rl (s.readReg rl + sext16 0), jumped := false } := rfl
  rw [hsum, ← latchedState_readReg (.addi rl 0), State.setReg_readReg] at heffect
  exact exec_of_effect_ok rfl heffect rfl

theorem loopCount_countVisit (c : Counters) (a b : Nat) :
    loopCount (countVisit c a) b = loopCount c b + if b = a then 1 else 0 := by
  split
  next h => rw [h, loopCount_countVisit_self]
  next h => rw [loopCount_countVisit_of_ne c h, Nat.add_zero]

/-- Settles O54: the word is ADDI of 0 to `x[0]`, so beside the visit's count only `pc` moves. -/
theorem nopChangesOnlyPcAndItsCount : Obligations.NopChangesOnlyPcAndItsCount := by
  intro s hp hword hcount
  have hnop : decode (codeRead s.code s.pc) = .ok (.addi 0 0) := by
    rw [hword]
    decide
  refine ⟨_, (step_of_below_threshold hp hnop hcount).trans (exec_addi_zero 0 _), fun r => ?_, ?_, ?_, fun a => ?_,
    fun a => ?_, ?_, ?_⟩ <;> simp [loopCount_countVisit]

end Sys2Proof.Machine
end

section
/-! SUPPORT. The words of a row, an instruction that completes by writing one register, and the two operand forms of the ALU
(41_alu.md R140). -/

namespace Sys2Proof.Machine

variable {s : State} {i : Instr} {rl : RegIdx}

/-- The words that match an instruction's row decode to that instruction with their own operands. -/
theorem wordsDecodeTo_rowOf (i : Instr) :
    WordsDecodeTo (rowOf i).pattern (fun w => i.withFields (fieldRl w) (fieldRf w) (fieldRs w)) := by
  intro w hw
  obtain ⟨hc, ht⟩ := (matches_rowOf_iff w i).1 hw
  exact decode_of_pair hc ht

/-- An instruction whose whole effect is one register write completes with that write, its latched operand and `pc` one
more. -/
theorem completesInReg_of_effect {v : Word} {result : Word → Prop}
    (hf : fetchOperands (recordOf i).right s = .ok (latchedState i s))
    (he : effectOf i (latchedState i s) = .ok { state := (latchedState i s).setReg rl v, jumped := false })
    (hv : result v) : CompletesInReg i s rl result (latchedOperand (recordOf i).right s) := by
  refine ⟨_, exec_of_effect_ok hf he rfl, ?_, fun r hr => ?_, rfl, rfl, fun _ => rfl, ⟨rfl, fun _ => rfl, rfl, rfl, rfl⟩, rfl⟩
  · simpa using hv
  · simp [State.readReg_setReg_of_ne _ v hr]

/-- The immediate form: the right operand is the sign-extended immediate, which the latch holds. -/
theorem completesInReg_aluImm {op : Word → Word → Word} {imm : BitVec 6} {result : Word → Prop}
    (hr : (recordOf i).right = .imm imm) (he : effectOf i = aluImm op rl)
    (hv : result (op (s.readReg rl) (sext16 imm))) : CompletesInReg i s rl result (sext16 imm) := by
  have hlatch : latchedOperand (recordOf i).right s = sext16 imm := by rw [hr, latchedOperand]
  rw [← hlatch] at hv ⊢
  exact completesInReg_of_effect (by rw [latchedState, hr]; rfl) (by rw [he]; rfl) hv

/-- The register form: both operands are registers as they stood, and the latch keeps its value. -/
theorem completesInReg_aluReg {op : Word → Word → Word} {rs : RegIdx} {result : Word → Prop}
    (hr : (recordOf i).right = .reg rs) (he : effectOf i = aluReg op rl rs)
    (hv : result (op (s.readReg rl) (s.readReg rs))) : CompletesInReg i s rl result s.opnd := by
  have hlatch : latchedOperand (recordOf i).right s = s.opnd := by rw [hr, latchedOperand]
  rw [← hlatch]
  exact completesInReg_of_effect (by rw [latchedState, hr]; rfl) (by rw [he]; rfl) hv

end Sys2Proof.Machine
end

section
/-! SUPPORT. The statements of 41_alu.md. -/

namespace Sys2Proof.Machine

/-- Settles O12: word addition wraps at 2^16 read either way, and an immediate's extension keeps its signed value. -/
theorem addWritesTheSum : Obligations.AddWritesTheSum := by
  refine ⟨wordsDecodeTo_rowOf (.addi 0 0), wordsDecodeTo_rowOf (.add 0 0), fun rl imm s => ?_, fun rl rs s => ?_⟩
  · refine completesInReg_aluImm rfl rfl ⟨BitVec.toNat_add _ _, ?_⟩
    rw [← toInt_sext16]
    exact BitVec.toInt_add _ _
  · exact completesInReg_aluReg rfl rfl ⟨BitVec.toNat_add _ _, BitVec.toInt_add _ _⟩

/-- Settles O13: word subtraction adds the complement to 2^16 (R146), and is the signed difference wrapped. -/
theorem subWritesTheDifference : Obligations.SubWritesTheDifference := by
  refine ⟨wordsDecodeTo_rowOf (.subi 0 0), wordsDecodeTo_rowOf (.sub 0 0), fun rl imm s => ?_, fun rl rs s => ?_⟩
  · refine completesInReg_aluImm rfl rfl ⟨BitVec.toNat_sub' _ _, ?_⟩
    rw [← toInt_sext16]
    exact BitVec.toInt_sub
  · exact completesInReg_aluReg rfl rfl ⟨BitVec.toNat_sub' _ _, BitVec.toInt_sub⟩

/-- Settles O14: the word operations are the Boolean ones at each bit. -/
theorem logicWorksBitByBit : Obligations.LogicWorksBitByBit := by
  refine ⟨⟨wordsDecodeTo_rowOf (.andi 0 0), wordsDecodeTo_rowOf (.and 0 0), wordsDecodeTo_rowOf (.ori 0 0),
    wordsDecodeTo_rowOf (.or 0 0), wordsDecodeTo_rowOf (.xori 0 0), wordsDecodeTo_rowOf (.xor 0 0)⟩,
    fun rl imm s => ⟨?_, ?_, ?_⟩, fun rl rs s => ⟨?_, ?_, ?_⟩⟩
  · exact completesInReg_aluImm rfl rfl fun _ => BitVec.getLsbD_and
  · exact completesInReg_aluImm rfl rfl fun _ => BitVec.getLsbD_or
  · exact completesInReg_aluImm rfl rfl fun _ => BitVec.getLsbD_xor
  · exact completesInReg_aluReg rfl rfl fun _ => BitVec.getLsbD_and
  · exact completesInReg_aluReg rfl rfl fun _ => BitVec.getLsbD_or
  · exact completesInReg_aluReg rfl rfl fun _ => BitVec.getLsbD_xor

end Sys2Proof.Machine
end

section
/-! SUPPORT. How a MOVE completes or halts: a store that completes in one data word, and the ILLEGAL_ADDRESS halts of the loads
and the stores (20_memory.md R71, R72). -/

namespace Sys2Proof.Machine

variable {s : State} {i : Instr} {rl : RegIdx} {v : Word}

/-- A halt raised in FETCH_OPERANDS or EXECUTE_INSTR, before which only the latch and the phase can have been written. -/
theorem haltsIllegalAddress_of_exec {a o : Word} {p : Phase}
    (h : exec i s = .next (raiseHalt .illegalAddress a ((s.setOpnd o).setPhase p))) : HaltsIllegalAddress i s a o :=
  ⟨_, h, rfl, rfl, fun _ => rfl, rfl, rfl, fun _ => rfl, rfl, fun _ => rfl, rfl, rfl⟩

/-- A load outside data memory halts in FETCH_OPERANDS, before the latch is written. -/
theorem haltsIllegalAddress_movld {rs : RegIdx} (ha : addrOK (s.readReg rs) = false) :
    HaltsIllegalAddress (.movld rl rs) s (s.readReg rs) s.opnd := by
  refine haltsIllegalAddress_of_exec (p := s.phase) ?_
  rw [exec_eq_runInstr]
  exact runInstr_of_load_halt (fetchOperands_memAtReg_of_not_addrOK ha)

/-- A store inside data memory writes the two bytes of its word, high byte first, and `pc`. -/
theorem Stores.completesInWord {a : Nat} (h : Stores i rl v s) (hindex : wordIndex (storeAddress rl s) = a)
    (hlt : (s.readReg rl).toNat < 0x0400) :
    a = (s.readReg rl).toNat ∧ CompletesInWord i s a v (latchedOperand (recordOf i).right s) := by
  have ha : addrOK (storeAddress rl s) = true := (addrOK_iff _).2 hlt
  subst hindex
  exact ⟨wordIndex_of_addrOK ha, _, h.exec_of_addrOK ha, readByte_writeWord_high _ _ _, readByte_writeWord_low _ _ _,
    fun _ => readByte_writeWord_of_ne _ _, fun _ => rfl, rfl, rfl, ⟨rfl, fun _ => rfl, rfl, rfl, rfl⟩, rfl⟩

/-- A store outside data memory halts in EXECUTE_INSTR, after its operand was latched (D3). -/
theorem Stores.haltsIllegalAddress (h : Stores i rl v s) (hge : 0x0400 ≤ (s.readReg rl).toNat) :
    HaltsIllegalAddress i s (s.readReg rl) (latchedOperand (recordOf i).right s) :=
  haltsIllegalAddress_of_exec (h.exec_of_not_addrOK ((not_addrOK_iff _).2 hge))

end Sys2Proof.Machine
end

section
/-! SUPPORT. The statements of 42_move.md. -/

namespace Sys2Proof.Machine

/-- Settles O15: the register takes the latch, which holds the sign-extended immediate. -/
theorem moviWritesTheImmediate : Obligations.MoviWritesTheImmediate :=
  ⟨wordsDecodeTo_rowOf (.movi 0 0), fun _ imm _ => completesInReg_of_effect rfl rfl (toInt_sext16 imm)⟩

/-- Settles O16: the address check decides between the register write of the latched word and the halt of FETCH_OPERANDS. -/
theorem movldLoadsTheWord : Obligations.MovldLoadsTheWord := by
  refine ⟨wordsDecodeTo_rowOf (.movld 0 0), fun rl rs s hlt => ?_, fun rl rs s hge => ?_, readWord_nil⟩
  · have ha : addrOK (s.readReg rs) = true := (addrOK_iff _).2 hlt
    have hlatch : latchedOperand (recordOf (.movld rl rs)).right s =
        readByte s.data (2 * (s.readReg rs).toNat) ++ readByte s.data (2 * (s.readReg rs).toNat + 1) := by
      rw [← wordIndex_of_addrOK ha]
      rfl
    rw [← hlatch]
    exact completesInReg_of_effect (fetchOperands_memAtReg_of_addrOK ha) rfl rfl
  · have ha : addrOK (s.readReg rs) = false := (not_addrOK_iff _).2 hge
    exact ⟨haltsIllegalAddress_movld ha, _, fetchOperands_memAtReg_of_not_addrOK ha⟩

/-- Settles O17: MOVSTI is a store of the sign-extended immediate, which its latch holds. -/
theorem movstiStoresTheImmediate : Obligations.MovstiStoresTheImmediate :=
  ⟨wordsDecodeTo_rowOf (.movsti 0 0), fun rl imm s _ => (stores_movsti rl imm s).completesInWord,
    fun rl imm s => (stores_movsti rl imm s).haltsIllegalAddress⟩

/-- Settles O18: MOVST is a store of the right register's value, and latches nothing. -/
theorem movstStoresTheRegister : Obligations.MovstStoresTheRegister :=
  ⟨wordsDecodeTo_rowOf (.movst 0 0), fun rl rs s _ => (stores_movst rl rs s).completesInWord,
    fun rl rs s => (stores_movst rl rs s).haltsIllegalAddress⟩

end Sys2Proof.Machine
end

section
/-! SUPPORT. The register-only form: the fields format U reads (D9), and a shift of the left register by one place. -/

namespace Sys2Proof

theorem withFields_of_format_U {i : Instr} (hf : i.format = .U) (rl : RegIdx) (rf rf' : BitVec 6) (rs rs' : RegIdx) :
    i.withFields rl rf rs = i.withFields rl rf' rs' := by
  cases i
  case shr | shl | jr => rfl
  all_goals cases hf

namespace Machine

variable {s : State} {i : Instr} {rl : RegIdx}

/-- The register-only form: the operand is the left register as it stood, and the latch keeps its value. -/
theorem completesInReg_shiftReg {op : Word → Word} {result : Word → Prop} (hr : (recordOf i).right = .absent)
    (he : effectOf i = shiftReg op rl) (hv : result (op (s.readReg rl))) : CompletesInReg i s rl result s.opnd := by
  have hlatch : latchedOperand (recordOf i).right s = s.opnd := by rw [hr, latchedOperand]
  rw [← hlatch]
  exact completesInReg_of_effect (by rw [latchedState, hr]; rfl) (by rw [he]; rfl) hv

theorem getLsbD_ushiftRight_one (x : Word) (k : Nat) : (x >>> 1).getLsbD k = x.getLsbD (k + 1) := by
  rw [BitVec.getLsbD_ushiftRight, Nat.add_comm]

theorem getLsbD_shiftLeft_one_succ (x : Word) {k : Nat} (hk : k < 15) : (x <<< 1).getLsbD (k + 1) = x.getLsbD k := by
  have hlt : k + 1 < 16 := Nat.succ_lt_succ hk
  simp [-BitVec.getLsbD_eq_getElem, BitVec.getLsbD_shiftLeft, hlt]

end Machine
end Sys2Proof
end

section
/-! SUPPORT. The statements of 43_shift.md. -/

namespace Sys2Proof

/-- Settles O7: the mask 0xFFC0 keeps the category, the type and the left register, which are all that format U reads. -/
theorem rightFieldOfRegisterOnlyFormsSelectsNothing : Obligations.RightFieldOfRegisterOnlyFormsSelectsNothing := by
  intro w v i hf hd hmask
  obtain ⟨hc, ht, hi⟩ := (decode_eq_ok_iff_fields w i).1 hd
  have hcat : fieldCat w = fieldCat v := extractLsb'_eq_of_and_eq hmask (by decide)
  have htyp : fieldTyp w = fieldTyp v := extractLsb'_eq_of_and_eq hmask (by decide)
  have hrl : fieldRl w = fieldRl v := congrArg BitVec.toFin (extractLsb'_eq_of_and_eq hmask (by decide))
  rw [decode_eq_ok_iff_fields, ← hcat, ← htyp, ← hrl, withFields_of_format_U hf _ _ (fieldRf w) _ (fieldRs w)]
  exact ⟨hc, ht, hi⟩

namespace Machine

/-- Settles O22: a shift reads the neighbouring bit, and past the word's ends, at bit 15 of SHR and bit 0 of SHL, it is 0. -/
theorem shiftsMoveBitsByOne : Obligations.ShiftsMoveBitsByOne := by
  refine ⟨wordsDecodeTo_rowOf (.shr 0), wordsDecodeTo_rowOf (.shl 0), fun rl s => ?_, fun rl s => ?_⟩
  · refine completesInReg_shiftReg (op := (· >>> 1)) rfl rfl ⟨?_, fun k _ => getLsbD_ushiftRight_one _ k⟩
    exact (getLsbD_ushiftRight_one _ 15).trans (BitVec.getLsbD_of_ge _ 16 le_rfl)
  · exact completesInReg_shiftReg (op := (· <<< 1)) rfl rfl ⟨by simp, fun _ hk => getLsbD_shiftLeft_one_succ _ hk⟩

end Machine
end Sys2Proof
end

section
/-! SUPPORT. How a BRANCH instruction completes: JR and the conditional branches set `pc` alone (44_branch.md R201, R203), and
the six comparisons read signed (R204 to R209). -/

namespace Sys2Proof.Machine

variable {s : State} {i : Instr} {rl : RegIdx}

/-- The BRANCH category is JR and the conditional branches (R110). -/
theorem branch_cases (hc : (recordOf i).cat = 7) : (∃ rl, i = .jr rl) ∨
    ∃ p rl disp, (recordOf i).right = .imm disp ∧ effectOf i = branchIf p rl := by
  cases i
  case jr rl => exact .inl ⟨rl, rfl⟩
  case beq | bne | blt | bgt | ble | bge => exact .inr ⟨_, _, _, rfl, rfl⟩
  all_goals simp [recordOf] at hc

/-- A branch whose effect jumps completes with the effect's `pc`: no increment follows (R244, C3). -/
theorem exec_of_effect_jumped {t : State} (hc : (recordOf i).cat = 7)
    (hf : fetchOperands (recordOf i).right s = .ok (latchedState i s))
    (he : effectOf i (latchedState i s) = .ok { state := t, jumped := true }) :
    exec i s = .next (t.setPhase .fetchInstr) := by
  rw [exec_eq_runInstr, runInstr_of_latched hf, executeInstr_ok he, hc, advancePc_jumped]
  rfl

theorem completesInPc_jr (rl : RegIdx) (s : State) : CompletesInPc (.jr rl) s (s.readReg rl) s.opnd :=
  ⟨_, exec_of_effect_jumped rfl rfl rfl, rfl, fun _ => rfl, rfl, fun _ => rfl, ⟨rfl, fun _ => rfl, rfl, rfl, rfl⟩, rfl⟩

theorem completesInPc_branchIf {p : Word → Word → Bool} {disp : BitVec 6} (hc : (recordOf i).cat = 7)
    (hr : (recordOf i).right = .imm disp) (he : effectOf i = branchIf p rl) :
    CompletesInPc i s (if p (s.readReg rl) (s.readReg 0) then s.pc + sext16 disp else s.pc + 1) (sext16 disp) := by
  have hexec := exec_eq_runInstr i s
  rw [he, runInstr_branchIf hc hr] at hexec
  exact ⟨_, hexec, rfl, fun _ => rfl, rfl, fun _ => rfl, ⟨rfl, fun _ => rfl, rfl, rfl, rfl⟩, rfl⟩

/-- The word sum is the sum of the address and the signed displacement, modulo 2^16 (D15). -/
theorem add_sext16 (pc : Word) (disp : BitVec 6) : pc + sext16 disp = BitVec.ofInt 16 (pc.toNat + disp.toInt) := by
  rw [BitVec.ofInt_add, BitVec.ofInt_natCast, BitVec.ofNat_toNat, BitVec.setWidth_eq]
  rfl

theorem add_one_eq_ofNat (pc : Word) : pc + 1 = BitVec.ofNat 16 (pc.toNat + 1) := by
  rw [BitVec.ofNat_add, BitVec.ofNat_toNat, BitVec.setWidth_eq]
  rfl

/-- A conditional branch in numbers: where its predicate is the condition `cond`, that chooses between the two sums. -/
theorem completesInPc_of_condition {p : Word → Word → Bool} {disp : BitVec 6} {cond : Prop} [Decidable cond]
    (hc : (recordOf i).cat = 7) (hr : (recordOf i).right = .imm disp) (he : effectOf i = branchIf p rl)
    (hp : p (s.readReg rl) (s.readReg 0) = true ↔ cond) :
    CompletesInPc i s
      (if cond then BitVec.ofInt 16 (s.pc.toNat + disp.toInt) else BitVec.ofNat 16 (s.pc.toNat + 1)) (sext16 disp) := by
  simp only [← hp, ← add_sext16, ← add_one_eq_ofNat]
  exact completesInPc_branchIf hc hr he

/-! ### The comparisons -/

theorem condEq_iff (x y : Word) : condEq x y = true ↔ x.toInt = y.toInt := by
  simp only [condEq, signed_eq_toInt, beq_iff_eq]
theorem condNe_iff (x y : Word) : condNe x y = true ↔ x.toInt ≠ y.toInt := by
  simp only [condNe, signed_eq_toInt, bne_iff_ne]
theorem condLt_iff (x y : Word) : condLt x y = true ↔ x.toInt < y.toInt := by
  simp only [condLt, signed_eq_toInt, decide_eq_true_iff]
theorem condGt_iff (x y : Word) : condGt x y = true ↔ x.toInt > y.toInt := by
  simp only [condGt, signed_eq_toInt, decide_eq_true_iff]
theorem condLe_iff (x y : Word) : condLe x y = true ↔ x.toInt ≤ y.toInt := by
  simp only [condLe, signed_eq_toInt, decide_eq_true_iff]
theorem condGe_iff (x y : Word) : condGe x y = true ↔ x.toInt ≥ y.toInt := by
  simp only [condGe, signed_eq_toInt, decide_eq_true_iff]

end Sys2Proof.Machine
end

section
/-! SUPPORT. A branch to its own address: it stays there while its visits are counted below the threshold (44_branch.md
R214). -/

namespace Sys2Proof.Machine

variable {s t u : State} {i : Instr} {n : Nat}

/-- A run is its last step after the steps before it. -/
theorem run_succ_of_run (h : Host.Core.run core n s = .next t) : Host.Core.run core (n + 1) s = step t := by
  induction n generalizing s with
  | zero =>
    cases h
    cases hs : step t with
    | next u => exact run_succ_of_next hs
    | fault r => simp [Host.Core.run, core, hs]
    | refused r => simp [Host.Core.run, core, hs]
  | succ n ih =>
    cases hs : step s with
    | next u =>
      rw [run_succ_of_next hs] at h ⊢
      exact ih h
    | fault r => simp [Host.Core.run, core, hs] at h
    | refused r => simp [Host.Core.run, core, hs] at h

/-- Where a branch goes depends on the registers and its own address alone. -/
theorem exists_branchTarget (hc : (recordOf i).cat = 7) : ∃ target : (RegIdx → Word) → Word → Word,
    ∀ s, ∃ opnd, CompletesInPc i s (target s.readReg s.pc) opnd := by
  rcases branch_cases hc with ⟨rl, rfl⟩ | ⟨p, rl, disp, hr, he⟩
  · exact ⟨fun regs _ => regs rl, fun s => ⟨_, completesInPc_jr rl s⟩⟩
  · exact ⟨fun regs pc => if p (regs rl) (regs 0) then pc + sext16 disp else pc + 1,
      fun _ => ⟨_, completesInPc_branchIf hc hr he⟩⟩

/-- A branch that stays in place once does so from every state with these registers at this address. -/
theorem completesInPc_of_in_place (hc : (recordOf i).cat = 7) (ht : exec i s = .next t) (hstay : t.pc = s.pc)
    (hpc : u.pc = s.pc) (hregs : RegsKept s u) : ∃ opnd, CompletesInPc i u s.pc opnd := by
  obtain ⟨target, htarget⟩ := exists_branchTarget hc
  obtain ⟨_, t', ht', hpc', -⟩ := htarget s
  cases ht'.symm.trans ht
  have hu := htarget u
  rwa [hpc, show u.readReg = s.readReg from funext hregs, ← hpc', hstay] at hu

/-- `u` is at the instruction boundary of `s`, `n` visits later. -/
structure LoopedInPlace (s u : State) (n : Nat) : Prop where
  phase : u.phase = .fetchInstr
  pc : u.pc = s.pc
  regs : RegsKept s u
  code : u.code = s.code
  count : loopCount u.loops s.pc.toNat = loopCount s.loops s.pc.toNat + n

theorem LoopedInPlace.word (h : LoopedInPlace s u n) : codeRead u.code u.pc = codeRead s.code s.pc := by
  rw [h.code, h.pc]

theorem LoopedInPlace.count_at_pc (h : LoopedInPlace s u n) :
    loopCount u.loops u.pc.toNat = loopCount s.loops s.pc.toNat + n := by
  rw [h.pc, h.count]

/-- Below the threshold a visit is the branch's own run, which stays in place. -/
theorem LoopedInPlace.step_below_threshold (h : LoopedInPlace s u n) (hd : decode (codeRead s.code s.pc) = .ok i)
    (hstay : ∃ opnd, CompletesInPc i (u.prepared i) s.pc opnd)
    (hn : loopCount s.loops s.pc.toNat + n < Config.loopThreshold) :
    ∃ v, step u = .next v ∧ LoopedInPlace s v (n + 1) := by
  obtain ⟨_, v, hv, hpc, hregs, -, -, ⟨hcode, hloops, -⟩, hphase⟩ := hstay
  refine ⟨v, (step_of_below_threshold h.phase (h.word ▸ hd) (h.count_at_pc ▸ hn)).trans hv, hphase, hpc,
    fun r => (hregs r).trans (h.regs r), hcode.trans h.code, ?_⟩
  rw [hloops, prepared_loops, h.pc, loopCount_countVisit_self, h.count, Nat.add_assoc]

/-- The visit at the threshold is counted and halts (R236). -/
theorem LoopedInPlace.step_at_threshold (h : LoopedInPlace s u n) (hd : decode (codeRead s.code s.pc) = .ok i)
    (hn : loopCount s.loops s.pc.toNat + n = Config.loopThreshold) :
    ∃ v, step u = .next v ∧ v.phase = .halted ∧
      v.halt = { reason := .infiniteLoop, pc := s.pc, instr := codeRead s.code s.pc, addr := 0 } ∧
      loopCount v.loops s.pc.toNat = Config.loopThreshold + 1 := by
  refine ⟨_, step_of_past_threshold h.phase (h.word ▸ hd) (by rw [h.count_at_pc, hn]), rfl, ?_, ?_⟩
  · simp [h.code, h.pc]
  · simp [h.pc, h.count, hn]

/-- As many steps as the threshold leaves are visits in place. -/
theorem run_loopedInPlace (hp : s.phase = .fetchInstr) (hd : decode (codeRead s.code s.pc) = .ok i)
    (hstay : ∀ u, u.pc = s.pc → RegsKept s u → ∃ opnd, CompletesInPc i u s.pc opnd)
    (hn : loopCount s.loops s.pc.toNat + n ≤ Config.loopThreshold) :
    ∃ u, Host.Core.run core n s = .next u ∧ LoopedInPlace s u n := by
  induction n with
  | zero => exact ⟨s, rfl, hp, rfl, fun _ => rfl, rfl, rfl⟩
  | succ n ih =>
    obtain ⟨u, hu, hloop⟩ := ih (by omega)
    obtain ⟨v, hv, hloop'⟩ := hloop.step_below_threshold hd (hstay _ hloop.pc hloop.regs) hn
    exact ⟨v, (run_succ_of_run hu).trans hv, hloop'⟩

end Sys2Proof.Machine
end

section
/-! SUPPORT. The statements of 44_branch.md. -/

namespace Sys2Proof.Machine

/-- Settles O23: the effect is the jump itself, and format U latches no operand. -/
theorem jrSetsPcToTheRegister : Obligations.JrSetsPcToTheRegister :=
  ⟨wordsDecodeTo_rowOf (.jr 0), completesInPc_jr⟩

/-- Settles O24: each is the conditional branch of its own comparison. -/
theorem equalityBranchesCompareWithRegisterZero : Obligations.EqualityBranchesCompareWithRegisterZero :=
  ⟨wordsDecodeTo_rowOf (.beq 0 0), wordsDecodeTo_rowOf (.bne 0 0), fun _ _ _ =>
    ⟨completesInPc_of_condition rfl rfl rfl (condEq_iff _ _), completesInPc_of_condition rfl rfl rfl (condNe_iff _ _)⟩⟩

/-- Settles O25: each is the conditional branch of its own comparison. -/
theorem strictBranchesCompareSigned : Obligations.StrictBranchesCompareSigned :=
  ⟨wordsDecodeTo_rowOf (.blt 0 0), wordsDecodeTo_rowOf (.bgt 0 0), fun _ _ _ =>
    ⟨completesInPc_of_condition rfl rfl rfl (condLt_iff _ _), completesInPc_of_condition rfl rfl rfl (condGt_iff _ _)⟩⟩

/-- Settles O26: each is the conditional branch of its own comparison. -/
theorem nonStrictBranchesCompareSigned : Obligations.NonStrictBranchesCompareSigned :=
  ⟨wordsDecodeTo_rowOf (.ble 0 0), wordsDecodeTo_rowOf (.bge 0 0), fun _ _ _ =>
    ⟨completesInPc_of_condition rfl rfl rfl (condLe_iff _ _), completesInPc_of_condition rfl rfl rfl (condGe_iff _ _)⟩⟩

/-- Settles O42: what decides the branch does not change in place, so only the count moves until it reaches the threshold. -/
theorem branchInPlaceHaltsOnTheVisitPastTheThreshold : Obligations.BranchInPlaceHaltsOnTheVisitPastTheThreshold := by
  intro s t i hp hd hc ht hstay hcount
  have hthreshold : Config.loopThreshold = 1024000 := rfl
  have hrun {n : Nat} (hn : n ≤ 1024000 - loopCount s.loops s.pc.toNat) :
      ∃ u, Host.Core.run core n s = .next u ∧ LoopedInPlace s u n :=
    run_loopedInPlace hp hd (fun _ => completesInPc_of_in_place (s := s.prepared i) hc ht hstay) (by omega)
  refine ⟨fun n hn => ?_, ?_⟩
  · obtain ⟨u, hu, hloop⟩ := hrun hn
    exact ⟨u, hu, hloop.phase, hloop.pc, hloop.regs, hloop.count⟩
  · obtain ⟨u, hu, hloop⟩ := hrun le_rfl
    obtain ⟨v, hv, hhalted⟩ := hloop.step_at_threshold hd (by omega)
    exact ⟨v, (run_succ_of_run hu).trans hv, hhalted⟩

end Sys2Proof.Machine
end

section
/-! SUPPORT. The control unit's tier 1 facts: the folded step below the threshold, and what FETCH_INSTR, DECODE_INSTR and
WRITE_BACK answer (45_control_unit.md R232, R233, R245, R250). -/

namespace Sys2Proof.Machine

/-- Settles O29: `prepared` is that state, and the count at `pc` is the one just made. -/
theorem stepRunsTheDecodedInstruction : Obligations.StepRunsTheDecodedInstruction :=
  fun _ _ hp hd hc => ⟨step_of_below_threshold hp hd hc, loopCount_countVisit_self _ _⟩

/-- Settles O30: both phases are plain updates of the state. -/
theorem fetchStagesTheWordAndWriteBackDoesNothing : Obligations.FetchStagesTheWordAndWriteBackDoesNothing :=
  fun _ => ⟨stepPhase_of_fetchInstr, stepPhase_of_writeBack⟩

/-- Settles O31: a decoded record is the record of an instruction, so the verdict on `ir` decides the phase. -/
theorem decodePhaseLatchesOrHalts : Obligations.DecodePhaseLatchesOrHalts := by
  intro s hp
  refine ⟨fun d hd => ?_, fun e he => ?_⟩ <;> rw [stepPhase_of_decodeInstr hp]
  · obtain ⟨i, hi, rfl⟩ := exists_decode_of_decodeRecord hd
    rw [decodeInstr_of_ok hi]
    rfl
  · rw [decodeInstr_of_error ((decode_error_iff _ _).2 he)]
    rfl

end Sys2Proof.Machine
end

section
/-! SUPPORT. The statements on single phases, on the pc update and on the halted core (45_control_unit.md R236, R240, R244,
R247). -/

namespace Sys2Proof.Machine

/-- Settles O27: of everything a meaning can answer, only a halt and a BRANCH's jump leave out the increment. -/
theorem pcAdvancesByOneUnlessABranch : Obligations.PcAdvancesByOneUnlessABranch := by
  intro i s t hcat hexec hrun
  rcases exec_cases i s with ⟨rs, -, -, hx⟩ | ⟨a, -, -, hx⟩ | ⟨u, hc, -⟩ | ⟨u, -, -, hx⟩
  · cases hx.symm.trans hexec
    exact absurd rfl hrun
  · cases hx.symm.trans hexec
    exact absurd rfl hrun
  · exact absurd hc hcat
  · cases hx.symm.trans hexec
    exact add_one_eq_ofNat s.pc

/-- Settles O32: the new count decides between the two answers, and a run reaches the threshold by single visits. -/
theorem loopDetectionCountsAndHalts : Obligations.LoopDetectionCountsAndHalts := by
  intro s hp hpc
  have hthreshold : Config.loopThreshold = 1024000 := rfl
  have hstep := stepPhase_of_calculateEa hp ((addrOK_iff s.pc).2 hpc)
  have hself := loopCount_countVisit_self s.loops s.pc.toNat
  rcases calculateEa_cases s with ⟨hlt, he⟩ | ⟨hge, he⟩ <;> rw [he] at hstep <;>
    refine ⟨_, hstep, hself, fun a ha => loopCount_countVisit_of_ne s.loops ha, fun hle => ?_, fun hgt => ?_,
      fun hinv hreason => ?_⟩
  · rfl
  · omega
  · have hnone : s.halt.reason = .none := by rw [hinv.noRecord (by simp [hp])]
    cases hnone.symm.trans hreason
  · omega
  · rfl
  · have hle := hinv.counts_le (by simp [hp]) s.pc.toNat
    exact hself.trans (by omega)

/-- Settles O33: the form of the right operand decides the latch, and the address check a load's halt. -/
theorem operandPhaseLatchesByForm : Obligations.OperandPhaseLatchesByForm := by
  intro s i hp hd
  have hstep := stepPhase_of_fetchOperands hp hd
  refine ⟨fun rf hr => ?_, fun rs hr hlt => ?_, fun rs hr hge => ?_, fun rs hr => ?_, fun hr => ?_⟩ <;> rw [hstep, hr]
  · rfl
  · have ha : addrOK (s.readReg rs) = true := (addrOK_iff _).2 hlt
    rw [fetchOperands_memAtReg_of_addrOK ha, wordIndex_of_addrOK ha]
    rfl
  · rw [fetchOperands_memAtReg_of_not_addrOK ((not_addrOK_iff _).2 hge)]
    rfl
  · rfl
  · rfl

theorem run_of_halted {s : State} (h : s.phase = .halted) (n : Nat) : Host.Core.run core n s = .next s := by
  induction n with
  | zero => rfl
  | succ n ih => exact (run_succ_of_next (step_of_halted h)).trans ih

theorem runPhases_of_halted {s : State} (h : s.phase = .halted) (n : Nat) : runPhases n s = .next s := by
  induction n with
  | zero => rfl
  | succ n ih => exact (runPhases_succ_of_next (stepPhase_of_halted h)).trans ih

/-- Settles O34: one step of either machine answers the same state, so any number does. -/
theorem haltIsTerminal : Obligations.HaltIsTerminal :=
  fun _ n h => ⟨run_of_halted h n, runPhases_of_halted h n⟩

end Sys2Proof.Machine
end

section
/-! SUPPORT. Where each halt arises: the phases that can halt, each with its own condition (45_control_unit.md R248). -/

namespace Sys2Proof.Machine

variable {s t : State} {i : Instr}

theorem recordOf_inj {i j : Instr} : recordOf i = recordOf j ↔ i = j :=
  ⟨fun h => Option.some.inj ((toInstr_recordOf i).symm.trans (h ▸ toInstr_recordOf j)), congrArg recordOf⟩

/-- The answer `t` is a halt exactly under a condition, and then for one reason. -/
def HaltsExactlyOn (cond : Prop) (reason : HaltReason) (t : State) : Prop :=
  (t.phase = .halted ↔ cond) ∧ (t.phase = .halted → t.halt.reason = reason)

theorem haltsExactlyOn_raiseHalt {cond : Prop} (h : cond) (r : HaltReason) (a : Word) (s : State) :
    HaltsExactlyOn cond r (raiseHalt r a s) :=
  ⟨iff_of_true rfl h, fun _ => rfl⟩

theorem haltsExactlyOn_of_running {cond : Prop} {r : HaltReason} (hrun : t.phase ≠ .halted) (h : ¬ cond) :
    HaltsExactlyOn cond r t :=
  ⟨iff_of_false hrun h, fun hp => absurd hp hrun⟩

theorem stepPhase_decodeInstr_halts (hp : s.phase = .decodeInstr) (h : stepPhase s = .next t) :
    HaltsExactlyOn (decode s.ir = .error (.illegalOpcode s.ir)) .illegalOpcode t := by
  rw [stepPhase_of_decodeInstr hp] at h
  cases hd : decode s.ir with
  | error e =>
    rw [decodeInstr_of_error hd] at h
    cases h
    obtain ⟨rfl, -⟩ := (decode_eq_error_iff _ _).1 hd
    exact haltsExactlyOn_raiseHalt rfl _ _ _
  | ok i =>
    rw [decodeInstr_of_ok hd] at h
    cases h
    exact haltsExactlyOn_of_running (by simp) (by simp)

theorem stepPhase_calculateEa_halts (hp : s.phase = .calculateEa) (h : stepPhase s = .next t) :
    HaltsExactlyOn (loopCount s.loops s.pc.toNat + 1 > 1024000) .infiniteLoop t := by
  have hthreshold : Config.loopThreshold = 1024000 := rfl
  rw [stepPhase_of_calculateEa hp (addrOK_of_stepPhase hp h)] at h
  rcases calculateEa_cases s with ⟨hlt, he⟩ | ⟨hge, he⟩ <;> rw [he] at h <;> cases h
  · exact haltsExactlyOn_of_running (by simp) (by omega)
  · exact haltsExactlyOn_raiseHalt (by omega) _ _ _

/-- A load is the one instruction whose operand is a data word (R107). -/
theorem stepPhase_fetchOperands_halts (hp : s.phase = .fetchOperands) (hd : s.dec = some (recordOf i))
    (h : stepPhase s = .next t) :
    HaltsExactlyOn (∃ rl rs, i = .movld rl rs ∧ 1024 ≤ (s.readReg rs).toNat) .illegalAddress t := by
  rw [stepPhase_of_fetchOperands hp hd] at h
  rcases fetchOperands_cases (recordOf i).right s with he | ⟨rs, hr, ha, he⟩
  · rw [he] at h
    cases h
    refine haltsExactlyOn_of_running (by simp) ?_
    rintro ⟨rl, rs, rfl, hge⟩
    cases he.symm.trans (fetchOperands_memAtReg_of_not_addrOK ((not_addrOK_iff _).2 hge))
  · rw [he] at h
    cases h
    obtain ⟨rl, hi⟩ := (right_memAtReg_iff i rs).1 hr
    exact haltsExactlyOn_raiseHalt ⟨rl, rs, hi, (not_addrOK_iff _).1 ha⟩ _ _ _

/-- A store at an address outside data memory. -/
def StoresOutside (i : Instr) (s : State) : Prop :=
  ∃ rl, 1024 ≤ (s.readReg rl).toNat ∧ ((∃ imm, i = .movsti rl imm) ∨ ∃ rs, i = .movst rl rs)

theorem moveToMem_error_iff (rl : RegIdx) (v : Word) (s : State) :
    (∃ h, moveToMem rl v s = .error h) ↔ 1024 ≤ (s.readReg rl).toNat := by
  rw [← not_addrOK_iff]
  cases ha : addrOK (s.readReg rl) with
  | true => simp [moveToMem_of_addrOK v s ha]
  | false => simp [moveToMem_of_not_addrOK v s ha]

theorem not_branchIf_error (p : Word → Word → Bool) (rl : RegIdx) (s : State) : ¬ ∃ h, branchIf p rl s = .error h := by
  unfold branchIf
  split <;> simp

/-- The only effects that halt are those of the stores (R248). -/
theorem effectOf_error_iff (i : Instr) (s : State) : (∃ h, effectOf i s = .error h) ↔ StoresOutside i s := by
  cases i
  case movsti rl imm => exact (moveToMem_error_iff rl s.opnd s).trans (by simp [StoresOutside])
  case movst rl rs => exact (moveToMem_error_iff rl (s.readReg rs) s).trans (by simp [StoresOutside])
  case beq | bne | blt | bgt | ble | bge => exact iff_of_false (not_branchIf_error _ _ s) (by simp [StoresOutside])
  all_goals
    refine iff_of_false ?_ (by simp [StoresOutside])
    rintro ⟨_, h⟩
    cases h

theorem stepPhase_executeInstr_halts (hp : s.phase = .executeInstr) (hd : s.dec = some (recordOf i))
    (h : stepPhase s = .next t) : HaltsExactlyOn (StoresOutside i s) .illegalAddress t := by
  rw [stepPhase_of_executeInstr hp hd] at h
  rw [← effectOf_error_iff]
  cases he : effectOf i s with
  | ok e =>
    rw [executeInstr_ok he] at h
    cases h
    exact haltsExactlyOn_of_running (by simp) (by simp)
  | error u =>
    rcases executeInstr_cases i s with ⟨v, hx, -⟩ | ⟨a, -, hx⟩
    · cases hx.symm.trans (executeInstr_error he)
    · rw [hx] at h
      cases h
      exact haltsExactlyOn_raiseHalt ⟨u, rfl⟩ _ _ _

/-- Settles O35: in each phase the other phases' cases are void, and its own is that phase's condition. -/
theorem eachHaltArisesInItsPhase : Obligations.EachHaltArisesInItsPhase := by
  intro s t hrun h
  cases hp : s.phase with
  | halted => exact absurd hp hrun
  | fetchInstr =>
    cases (stepPhase_of_fetchInstr hp).symm.trans h
    simp
  | decodeInstr => simpa [HaltsExactlyOn] using stepPhase_decodeInstr_halts hp h
  | calculateEa => simpa [HaltsExactlyOn] using stepPhase_calculateEa_halts hp h
  | fetchOperands =>
    obtain ⟨i, hd⟩ := exists_record_of_stepPhase (.inl hp) h
    have hhalts := stepPhase_fetchOperands_halts hp hd h
    simpa [HaltsExactlyOn, hd, recordOf_inj] using hhalts
  | executeInstr =>
    obtain ⟨i, hd⟩ := exists_record_of_stepPhase (.inr hp) h
    simpa [HaltsExactlyOn, StoresOutside, hd, recordOf_inj] using stepPhase_executeInstr_halts hp hd h
  | writeBack =>
    cases (stepPhase_of_writeBack hp).symm.trans h
    simp

end Sys2Proof.Machine
end

section
/-! SUPPORT. How many phases an instruction takes, and the run of the folded machine as a run of phases
(45_control_unit.md R249, R250, 70_reset_and_hazards.md R296). -/

namespace Sys2Proof.Machine

variable {s t u : State} {i : Instr} {k : Nat}

/-! ### Reaching a state with no instruction boundary before -/

/-- `t` comes after `k` phases of `s`, and none of the states between is an instruction boundary. -/
def ReachesIn (k : Nat) (s t : State) : Prop :=
  runPhases k s = .next t ∧ ∀ j, 0 < j → j < k → ∃ u, runPhases j s = .next u ∧ u.atBoundary = false

theorem reachesIn_one (h : stepPhase s = .next t) : ReachesIn 1 s t :=
  ⟨runPhases_succ_of_next h, fun j _ _ => by omega⟩

theorem ReachesIn.cons (ht : ReachesIn k u t) (h : stepPhase s = .next u) (hu : u.atBoundary = false) :
    ReachesIn (k + 1) s t := by
  obtain ⟨hrun, hbefore⟩ := ht
  refine ⟨(runPhases_succ_of_next h).trans hrun, fun j hpos hj => ?_⟩
  obtain _ | _ | j := j
  · omega
  · exact ⟨u, runPhases_succ_of_next h, hu⟩
  · rw [runPhases_succ_of_next h]
    exact hbefore (j + 1) (by omega) (by omega)

/-! ### An instruction's phases -/

/-- From FETCH_OPERANDS an instruction takes three phases when it completes, one when a load halts and two when a store
does. -/
theorem exec_reachesIn (hp : s.phase = .fetchOperands) (hd : s.dec = some (recordOf i)) (h : exec i s = .next t) :
    (t.phase = .fetchInstr ∧ ReachesIn 3 s t) ∨
    (t.phase = .halted ∧ t.halt.reason = .illegalAddress ∧
      ((ReachesIn 1 s t ∧ ∃ rl rs, i = .movld rl rs) ∨
        (ReachesIn 2 s t ∧ ((∃ rl imm, i = .movsti rl imm) ∨ ∃ rl rs, i = .movst rl rs)))) := by
  have hfetch := stepPhase_of_fetchOperands hp hd
  rw [exec_eq_runInstr] at h
  rcases fetchOperands_cases (recordOf i).right s with hf | ⟨rs, hr, -, hf⟩ <;> rw [hf] at hfetch
  · replace hf : fetchOperands (recordOf i).right s = .ok (latchedState i s) := hf
    have hexec := stepPhase_of_executeInstr (latchedState_phase i s) hd
    rw [runInstr_of_latched hf] at h
    rcases executeInstr_cases i (latchedState i s) with ⟨u, he, -⟩ | ⟨a, -, he⟩ <;> rw [he] at hexec h <;> cases h
    · exact .inl ⟨rfl, ((reachesIn_one (stepPhase_of_writeBack rfl)).cons hexec rfl).cons hfetch rfl⟩
    · have hstore : StoresOutside i (latchedState i s) := by
        rw [← effectOf_error_iff]
        cases hx : effectOf i (latchedState i s) with
        | ok e => cases he.symm.trans (executeInstr_ok hx)
        | error h => exact ⟨h, rfl⟩
      obtain ⟨rl, -, hi⟩ := hstore
      exact .inr ⟨rfl, rfl, .inr ⟨(reachesIn_one hexec).cons hfetch rfl,
        hi.imp (fun ⟨imm, hi⟩ => ⟨rl, imm, hi⟩) fun ⟨rs, hi⟩ => ⟨rl, rs, hi⟩⟩⟩
  · cases (runInstr_of_load_halt hf).symm.trans h
    obtain ⟨rl, hi⟩ := (right_memAtReg_iff i rs).1 hr
    exact .inr ⟨rfl, rfl, .inl ⟨reachesIn_one hfetch, rl, rs, hi⟩⟩

/-- The state CALCULATE_EA is given, the word at `pc` decoded to `i`. -/
def State.decodedTo (s : State) (i : Instr) : State := ((fetchInstr s).setDec (some (recordOf i))).setPhase .calculateEa

@[simp] theorem decodedTo_pc (s : State) (i : Instr) : (s.decodedTo i).pc = s.pc := by simp [State.decodedTo]
@[simp] theorem decodedTo_loops (s : State) (i : Instr) : (s.decodedTo i).loops = s.loops := by simp [State.decodedTo]
@[simp] theorem decodedTo_phase (s : State) (i : Instr) : (s.decodedTo i).phase = .calculateEa := by simp [State.decodedTo]

theorem stepPhase_fetchInstr_of_ok (hd : decode (fetchInstr s).ir = .ok i) :
    stepPhase (fetchInstr s) = .next (s.decodedTo i) := by
  rw [stepPhase_of_decodeInstr (fetchInstr_phase s), decodeInstr_of_ok hd, phaseOutcome_ok, State.decodedTo]

theorem stepPhase_fetchInstr_of_error {e : DecodeError} (hd : decode (fetchInstr s).ir = .error e) :
    stepPhase (fetchInstr s) = .next (raiseHalt .illegalOpcode 0 (fetchInstr s)) := by
  rw [stepPhase_of_decodeInstr (fetchInstr_phase s), decodeInstr_of_error hd, phaseOutcome_error]

theorem ReachesIn.of_decodedTo (h : ReachesIn k (s.decodedTo i) t) (hp : s.phase = .fetchInstr)
    (hd : decode (codeRead s.code s.pc) = .ok i) : ReachesIn (k + 2) s t :=
  (h.cons (stepPhase_fetchInstr_of_ok hd) rfl).cons (stepPhase_of_fetchInstr hp) rfl

/-- After the count of the visit the instruction's own phases are prepared, or the visit halts (R236). -/
theorem stepPhase_decodedTo_cases (hd : decode (codeRead s.code s.pc) = .ok i) :
    (loopCount s.loops s.pc.toNat < Config.loopThreshold ∧ stepPhase (s.decodedTo i) = .next (s.prepared i)) ∨
    (Config.loopThreshold ≤ loopCount s.loops s.pc.toNat ∧
      stepPhase (s.decodedTo i) = .next (raiseHalt .infiniteLoop 0 ((s.prepared i).setPhase .calculateEa))) := by
  have hstep := stepPhase_of_calculateEa (decodedTo_phase s i) (addrOK_of_decode_codeRead hd)
  have hcases := calculateEa_cases (s.decodedTo i)
  rw [decodedTo_pc, decodedTo_loops] at hcases
  rcases hcases with ⟨hlt, he⟩ | ⟨hge, he⟩ <;> rw [hstep, he]
  · exact .inl ⟨hlt, rfl⟩
  · exact .inr ⟨hge, rfl⟩

/-- How many phases a halt for `reason` takes, by what the word at `pc` decodes to (R248, R296). -/
def HaltsAfter (k : Nat) (reason : HaltReason) (decoded : Except DecodeError Instr) : Prop :=
  (k = 2 ∧ reason = .illegalOpcode) ∨ (k = 3 ∧ reason = .infiniteLoop) ∨
    (k = 4 ∧ reason = .illegalAddress ∧ ∃ rl rs, decoded = .ok (.movld rl rs)) ∨
    (k = 5 ∧ reason = .illegalAddress ∧
      ((∃ rl imm, decoded = .ok (.movsti rl imm)) ∨ ∃ rl rs, decoded = .ok (.movst rl rs)))

theorem HaltsAfter.le_six {r : HaltReason} {d : Except DecodeError Instr} (h : HaltsAfter k r d) : k ≤ 6 := by
  rcases h with ⟨rfl, -⟩ | ⟨rfl, -⟩ | ⟨rfl, -⟩ | ⟨rfl, -⟩ <;> decide

/-- A step at an instruction boundary is six phases to the next one, or as many as its halt takes. -/
theorem step_reachesIn (hp : s.phase = .fetchInstr) (h : step s = .next t) :
    (t.phase = .fetchInstr ∧ ReachesIn 6 s t) ∨
    (t.phase = .halted ∧ ∃ k, ReachesIn k s t ∧ HaltsAfter k t.halt.reason (decode (codeRead s.code s.pc))) := by
  cases hd : decode (codeRead s.code s.pc) with
  | error e =>
    cases (step_of_decode_error hp hd).symm.trans h
    exact .inr ⟨rfl, 2, (reachesIn_one (stepPhase_fetchInstr_of_error hd)).cons (stepPhase_of_fetchInstr hp) rfl,
      .inl ⟨rfl, rfl⟩⟩
  | ok i =>
    rcases stepPhase_decodedTo_cases hd with ⟨hlt, hcount⟩ | ⟨hge, hcount⟩
    · rw [step_of_below_threshold hp hd hlt] at h
      have hphases {k : Nat} (hk : ReachesIn k (s.prepared i) t) : ReachesIn (k + 3) s t :=
        (hk.cons hcount rfl).of_decodedTo hp hd
      rcases exec_reachesIn rfl rfl h with ⟨hnext, hk⟩ | ⟨hhalt, hreason, ⟨hk, rl, rs, rfl⟩ | ⟨hk, hi⟩⟩
      · exact .inl ⟨hnext, hphases hk⟩
      · exact .inr ⟨hhalt, 4, hphases hk, .inr (.inr (.inl ⟨rfl, hreason, rl, rs, rfl⟩))⟩
      · exact .inr ⟨hhalt, 5, hphases hk, .inr (.inr (.inr ⟨rfl, hreason, by simpa using hi⟩))⟩
    · cases (step_of_past_threshold hp hd hge).symm.trans h
      exact .inr ⟨rfl, 3, (reachesIn_one hcount).of_decodedTo hp hd, .inr (.inl ⟨rfl, rfl⟩)⟩

/-- Settles O40: the phases of each kind of instruction, none of the states between at a boundary. -/
theorem instructionTakesSixPhasesOrHaltsEarlier : Obligations.InstructionTakesSixPhasesOrHaltsEarlier := by
  intro s t hp h
  rcases step_reachesIn hp h with ⟨hnext, hrun, hbefore⟩ | ⟨hhalt, k, ⟨hrun, hbefore⟩, hk⟩
  · exact ⟨fun _ => ⟨hnext, hrun, hbefore⟩, fun hhalt => by cases hnext.symm.trans hhalt⟩
  · exact ⟨fun hrun => absurd hhalt hrun, fun _ => ⟨k, hrun, hk, hbefore⟩⟩

/-! ### Runs of whole instructions -/

theorem exists_step_of_fetch (hp : s.phase = .fetchInstr) : ∃ t, step s = .next t := by
  rcases step_of_fetch hp with ⟨_, -, hs⟩ | ⟨_, -, -, hs⟩ | ⟨i, -, -, hs⟩
  · exact ⟨_, hs⟩
  · exact ⟨_, hs⟩
  · exact hs ▸ exec_answers_next i _

/-- Six phases lead where the step does: a core that halts earlier stays where it is (R247). -/
theorem runPhases_six_of_step (hp : s.phase = .fetchInstr) (h : step s = .next t) : runPhases 6 s = .next t := by
  rcases step_reachesIn hp h with ⟨-, hrun, -⟩ | ⟨hhalt, k, ⟨hrun, -⟩, hk⟩
  · exact hrun
  · calc runPhases 6 s = runPhases (k + (6 - k)) s := by rw [Nat.add_sub_cancel' hk.le_six]
      _ = runPhases (6 - k) t := runPhases_add hrun
      _ = .next t := runPhases_of_halted hhalt _

/-- Settles O39: instruction by instruction, and a halted core repeats itself in both machines. -/
theorem runIsSixPhasesPerInstruction : Obligations.RunIsSixPhasesPerInstruction := by
  intro n
  induction n with
  | zero => exact fun _ _ => rfl
  | succ n ih =>
    intro s hp
    obtain ⟨t, ht⟩ := exists_step_of_fetch hp
    rw [run_succ_of_next ht, Nat.mul_add, Nat.add_comm, runPhases_add (runPhases_six_of_step hp ht)]
    rcases step_reachesIn hp ht with ⟨hnext, -⟩ | ⟨hhalt, -⟩
    · exact ih t hnext
    · exact (run_of_halted hhalt n).trans (runPhases_of_halted hhalt _).symm

end Sys2Proof.Machine
end

section
/-! SUPPORT. The loop counters through one step (45_control_unit.md R236, R237): CALCULATE_EA is the one phase that writes a
counter, and a step performs it at most once. -/

namespace Sys2Proof.Machine

variable {s t : State} {n : Nat}

theorem stepPhase_of_calculateEa_loops (hp : s.phase = .calculateEa) (h : stepPhase s = .next t) :
    t.loops = countVisit s.loops s.pc.toNat ∧ (t.phase = .fetchOperands ∨ t.phase = .halted) := by
  rw [stepPhase_of_calculateEa hp (addrOK_of_stepPhase hp h)] at h
  rcases calculateEa_cases s with ⟨-, he⟩ | ⟨-, he⟩ <;> rw [he] at h <;> cases h
  · exact ⟨rfl, .inl rfl⟩
  · exact ⟨rfl, .inr rfl⟩

/-- DECODE_INSTR leaves the counters and `pc` for the phase that counts. -/
theorem stepPhase_of_decodeInstr_loops (hp : s.phase = .decodeInstr) (h : stepPhase s = .next t) :
    t.loops = s.loops ∧ t.pc = s.pc ∧ (t.phase = .calculateEa ∨ t.phase = .halted) := by
  rw [stepPhase_of_decodeInstr hp] at h
  cases hd : decode s.ir with
  | error e =>
    rw [decodeInstr_of_error hd] at h
    cases h
    exact ⟨rfl, rfl, .inr rfl⟩
  | ok i =>
    rw [decodeInstr_of_ok hd] at h
    cases h
    exact ⟨rfl, rfl, .inl rfl⟩

/-- The phases in which the visit is counted already, and the boundary after them. -/
def Phase.counted : Phase → Bool
  | .fetchOperands | .executeInstr | .writeBack | .fetchInstr | .halted => true
  | .decodeInstr | .calculateEa => false

theorem stepPhase_of_counted_loops (hp : s.phase.counted = true) (hb : s.atBoundary = false) (h : stepPhase s = .next t) :
    t.loops = s.loops ∧ t.phase.counted = true := by
  cases hs : s.phase with
  | fetchInstr | halted => simp [State.atBoundary, hs] at hb
  | decodeInstr | calculateEa => simp [Phase.counted, hs] at hp
  | fetchOperands =>
    obtain ⟨i, hd⟩ := exists_record_of_stepPhase (.inl hs) h
    rw [stepPhase_of_fetchOperands hs hd] at h
    rcases fetchOperands_cases (recordOf i).right s with he | ⟨rs, -, -, he⟩ <;> rw [he] at h <;> cases h <;>
      exact ⟨rfl, rfl⟩
  | executeInstr =>
    obtain ⟨i, hd⟩ := exists_record_of_stepPhase (.inr hs) h
    rw [stepPhase_of_executeInstr hs hd] at h
    rcases executeInstr_cases i s with ⟨u, he, -, hloops, -⟩ | ⟨a, -, he⟩ <;> rw [he] at h <;> cases h
    · exact ⟨hloops, rfl⟩
    · exact ⟨rfl, rfl⟩
  | writeBack =>
    cases (stepPhase_of_writeBack hs).symm.trans h
    exact ⟨rfl, rfl⟩

/-- The first phase of several, and the phases after it. -/
theorem exists_stepPhase_of_finishInstr (hb : s.atBoundary = false) (h : finishInstr (n + 1) s = .next t) :
    ∃ u, stepPhase s = .next u ∧ finishInstr n u = .next t := by
  cases hu : stepPhase s with
  | next u => exact ⟨u, rfl, (finishInstr_succ_of_next hb hu).symm.trans h⟩
  | fault r => simp [finishInstr, hb, hu] at h
  | refused r => simp [finishInstr, hb, hu] at h

theorem finishInstr_of_counted_loops (hp : s.phase.counted = true) (h : finishInstr n s = .next t) : t.loops = s.loops := by
  induction n generalizing s with
  | zero =>
    cases h
    rfl
  | succ n ih =>
    cases hb : s.atBoundary with
    | true =>
      cases (finishInstr_of_boundary hb).symm.trans h
      rfl
    | false =>
      obtain ⟨u, hu, h⟩ := exists_stepPhase_of_finishInstr hb h
      obtain ⟨hloops, hp⟩ := stepPhase_of_counted_loops hp hb hu
      exact (ih hp h).trans hloops

theorem finishInstr_of_calculateEa_loops (hp : s.phase = .calculateEa) (h : finishInstr n s = .next t) :
    t.loops = s.loops ∨ t.loops = countVisit s.loops s.pc.toNat := by
  cases n with
  | zero =>
    cases h
    exact .inl rfl
  | succ n =>
    obtain ⟨u, hu, h⟩ := exists_stepPhase_of_finishInstr (by simp [State.atBoundary, hp]) h
    obtain ⟨hloops, hnext⟩ := stepPhase_of_calculateEa_loops hp hu
    have hcounted : u.phase.counted = true := by rcases hnext with hnext | hnext <;> rw [hnext, Phase.counted]
    exact .inr ((finishInstr_of_counted_loops hcounted h).trans hloops)

/-- The phases left of an instruction count its visit once, at the `pc` it began with, or not at all. -/
theorem finishInstr_loops (h : finishInstr n s = .next t) :
    t.loops = s.loops ∨ t.loops = countVisit s.loops s.pc.toNat := by
  cases hp : s.phase with
  | fetchInstr | fetchOperands | executeInstr | writeBack | halted =>
    exact .inl (finishInstr_of_counted_loops (by rw [hp, Phase.counted]) h)
  | calculateEa => exact finishInstr_of_calculateEa_loops hp h
  | decodeInstr =>
    cases n with
    | zero =>
      cases h
      exact .inl rfl
    | succ n =>
      obtain ⟨u, hu, h⟩ := exists_stepPhase_of_finishInstr (by simp [State.atBoundary, hp]) h
      obtain ⟨hloops, hpc, hnext | hnext⟩ := stepPhase_of_decodeInstr_loops hp hu
      · rw [← hloops, ← hpc]
        exact finishInstr_of_calculateEa_loops hnext h
      · exact .inl ((finishInstr_of_counted_loops (by rw [hnext, Phase.counted]) h).trans hloops)

theorem step_loops (h : step s = .next t) : t.loops = s.loops ∨ t.loops = countVisit s.loops s.pc.toNat := by
  by_cases hhalt : s.phase = .halted
  · cases (step_of_halted hhalt).symm.trans h
    exact .inl rfl
  by_cases hfetch : s.phase = .fetchInstr
  · rw [step_eq_finishInstr hfetch] at h
    simpa using finishInstr_loops h
  · rw [step_of_inside (by simp [State.atBoundary, hfetch, hhalt])] at h
    exact finishInstr_loops h

/-- Settles O43: a step leaves the counters or counts one visit at `pc`. -/
theorem countersOnlyGrow : Obligations.CountersOnlyGrow := by
  intro s t h a
  rcases step_loops h with hloops | hloops <;> rw [hloops]
  · exact ⟨le_rfl, Nat.le_succ _, fun hne => absurd rfl hne⟩
  · rw [loopCount_countVisit]
    split
    next ha => exact ⟨Nat.le_succ _, le_rfl, fun _ => ha⟩
    next => exact ⟨le_rfl, Nat.le_succ _, fun hne => absurd rfl hne⟩

end Sys2Proof.Machine
end

section
/-! SUPPORT. Every run halts (45_control_unit.md R238): each completed instruction uses up one of the visits the counters
still allow. -/

namespace Sys2Proof.Machine

variable {s t : State} {i : Instr}

/-- The visits left before every counter stands at the threshold. -/
def visitsLeft (c : Counters) : Nat := ∑ a ∈ Finset.range Config.codeWords, (Config.loopThreshold - loopCount c a)

theorem visitsLeft_le (c : Counters) : visitsLeft c ≤ 1048576000 := by
  have hle := Finset.sum_le_card_nsmul (Finset.range Config.codeWords) (fun a => Config.loopThreshold - loopCount c a)
    Config.loopThreshold fun _ _ => Nat.sub_le _ _
  simpa [visitsLeft, Config.codeWords, Config.loopThreshold] using hle

theorem visitsLeft_countVisit_lt {c : Counters} {a : Nat} (ha : a < Config.codeWords)
    (hc : loopCount c a < Config.loopThreshold) : visitsLeft (countVisit c a) < visitsLeft c := by
  refine Finset.sum_lt_sum (fun b _ => ?_) ⟨a, Finset.mem_range.2 ha, ?_⟩
  · rw [loopCount_countVisit]
    omega
  · rw [loopCount_countVisit_self]
    omega

theorem exec_loops (h : exec i s = .next t) : t.loops = s.loops := by
  rcases exec_cases i s with ⟨rs, -, -, hx⟩ | ⟨a, -, -, hx⟩ | ⟨u, -, -, hx⟩ | ⟨u, -, hu, hx⟩ <;> cases hx.symm.trans h
  · rfl
  · rfl
  · rfl
  · obtain ⟨rl, v, rfl⟩ | ⟨a, v, -, rfl⟩ | rfl := hu <;> rfl

/-- An instruction that completes was counted below the threshold, at an address with a counter. -/
theorem step_completes_loops (hp : s.phase = .fetchInstr) (h : step s = .next t) (hrun : t.phase ≠ .halted) :
    t.loops = countVisit s.loops s.pc.toNat ∧ s.pc.toNat < Config.codeWords ∧
      loopCount s.loops s.pc.toNat < Config.loopThreshold := by
  rcases step_of_fetch hp with ⟨e, -, hs⟩ | ⟨i, -, -, hs⟩ | ⟨i, hd, hlt, hs⟩
  · cases hs.symm.trans h
    exact absurd rfl hrun
  · cases hs.symm.trans h
    exact absurd rfl hrun
  · exact ⟨exec_loops (hs.symm.trans h), (addrOK_iff s.pc).1 (addrOK_of_decode_codeRead hd), hlt⟩

/-- A run halts before it has completed more instructions than there are visits left. -/
theorem exists_run_halted (hp : s.phase = .fetchInstr) :
    ∃ n t, n ≤ visitsLeft s.loops ∧ Host.Core.run core (n + 1) s = .next t ∧ t.phase = .halted := by
  induction hm : visitsLeft s.loops using Nat.strong_induction_on generalizing s with
  | _ m ih =>
    obtain ⟨t, ht⟩ := exists_step_of_fetch hp
    rcases step_reachesIn hp ht with ⟨hnext, -⟩ | ⟨hhalt, -⟩
    · obtain ⟨hloops, ha, hc⟩ := step_completes_loops hp ht (by simp [hnext])
      have hlt : visitsLeft t.loops < m := by
        rw [hloops, ← hm]
        exact visitsLeft_countVisit_lt ha hc
      obtain ⟨n, u, hn, hu, hhalt⟩ := ih _ hlt hnext rfl
      exact ⟨n + 1, u, hn.trans_lt hlt, (run_succ_of_next ht).trans hu, hhalt⟩
    · exact ⟨0, t, Nat.zero_le _, run_succ_of_next ht, hhalt⟩

/-- Settles O41: no more instructions can complete than all the visits the counters allow. -/
theorem everyRunHalts : Obligations.EveryRunHalts := by
  intro s hp
  obtain ⟨n, t, hn, hrun⟩ := exists_run_halted hp
  exact ⟨n, t, hn.trans (visitsLeft_le s.loops), hrun⟩

end Sys2Proof.Machine
end

section
/-! SUPPORT. Which instructions halt from their operand phase on, and the state every halt is raised in (60_exceptions.md R264,
R265, R267). -/

namespace Sys2Proof.Machine

variable {s t : State} {i : Instr}

/-- A load at an address outside data memory. -/
def LoadsOutside (i : Instr) (s : State) : Prop := ∃ rl rs, i = .movld rl rs ∧ 1024 ≤ (s.readReg rs).toNat

theorem storesOutside_iff : StoresOutside i s ↔
    (∃ rl imm, i = .movsti rl imm ∧ 1024 ≤ (s.readReg rl).toNat) ∨
    (∃ rl rs, i = .movst rl rs ∧ 1024 ≤ (s.readReg rl).toNat) := by
  simp only [StoresOutside, and_or_left, exists_or, ← exists_and_left, and_comm]

theorem storesOutside_latchedState : StoresOutside i (latchedState i s) ↔ StoresOutside i s := Iff.rfl

/-- The loads and stores outside data memory all take the halt of their address check. -/
theorem exists_haltsIllegalAddress_of_outside (h : LoadsOutside i s ∨ StoresOutside i s) :
    ∃ a o, HaltsIllegalAddress i s a o := by
  rcases h with ⟨rl, rs, rfl, hge⟩ | ⟨rl, hge, ⟨imm, rfl⟩ | ⟨rs, rfl⟩⟩
  · exact ⟨_, _, haltsIllegalAddress_movld ((not_addrOK_iff _).2 hge)⟩
  · exact ⟨_, _, (stores_movsti rl imm s).haltsIllegalAddress hge⟩
  · exact ⟨_, _, (stores_movst rl rs s).haltsIllegalAddress hge⟩

/-- An instruction halts only on a load's or a store's address, having written at most the latch and the phase (D3). -/
theorem exec_halted_cases (h : exec i s = .next t) (hhalt : t.phase = .halted) :
    (LoadsOutside i s ∨ StoresOutside i s) ∧ ∃ a o p, t = raiseHalt .illegalAddress a ((s.setOpnd o).setPhase p) := by
  rcases exec_cases i s with ⟨rs, hr, ha, hx⟩ | ⟨a, -, he, hx⟩ | ⟨u, -, -, hx⟩ | ⟨u, -, -, hx⟩ <;> cases hx.symm.trans h
  · obtain ⟨rl, hi⟩ := (right_memAtReg_iff i rs).1 hr
    exact ⟨.inl ⟨rl, rs, hi, (not_addrOK_iff _).1 ha⟩, _, s.opnd, s.phase, rfl⟩
  · exact ⟨.inr (storesOutside_latchedState.1 ((effectOf_error_iff _ _).1 ⟨_, he⟩)), a, _, _, rfl⟩
  · cases hhalt
  · cases hhalt

theorem exec_halts (h : exec i s = .next t) : HaltsExactlyOn (LoadsOutside i s ∨ StoresOutside i s) .illegalAddress t := by
  refine ⟨⟨fun hhalt => (exec_halted_cases h hhalt).1, fun hout => ?_⟩, fun hhalt => ?_⟩
  · obtain ⟨a, o, u, hu, hhalt, -⟩ := exists_haltsIllegalAddress_of_outside hout
    cases hu.symm.trans h
    exact hhalt
  · obtain ⟨-, a, o, p, rfl⟩ := exec_halted_cases h hhalt
    rfl

/-- Every halt of a step at FETCH_INSTR, with the state it is raised in: before the count of the visit for an illegal word,
after it for the two others. -/
theorem step_halted_cases (hp : s.phase = .fetchInstr) (h : step s = .next t) (hhalt : t.phase = .halted) :
    t = raiseHalt .illegalOpcode 0 (fetchInstr s) ∨
    (∃ i, t = raiseHalt .infiniteLoop 0 ((s.prepared i).setPhase .calculateEa)) ∨
    ∃ i a o p, t = raiseHalt .illegalAddress a (((s.prepared i).setOpnd o).setPhase p) := by
  rcases step_of_fetch hp with ⟨e, -, hs⟩ | ⟨i, -, -, hs⟩ | ⟨i, -, -, hs⟩
  · cases hs.symm.trans h
    exact .inl rfl
  · cases hs.symm.trans h
    exact .inr (.inl ⟨i, rfl⟩)
  · exact .inr (.inr ⟨i, (exec_halted_cases (hs.symm.trans h) hhalt).2⟩)

end Sys2Proof.Machine
end

section
/-! SUPPORT. The statements of 60_exceptions.md. -/

namespace Sys2Proof.Machine

/-- Settles O36: the halts come in the order the step tests for them, and the rest is the instruction's own halt. -/
theorem firstHaltInPhaseOrderWins : Obligations.FirstHaltInPhaseOrderWins := by
  intro s hp
  obtain ⟨t, ht⟩ := exists_step_of_fetch hp
  refine ⟨t, ht, fun e hd => ?_, fun i hd hge => ?_, fun i hd hlt => ?_⟩
  · cases (step_of_decode_error hp hd).symm.trans ht
    exact ⟨rfl, rfl⟩
  · cases (step_of_past_threshold hp hd hge).symm.trans ht
    exact ⟨rfl, rfl⟩
  · obtain ⟨hiff, hreason⟩ := exec_halts ((step_of_below_threshold hp hd hlt).symm.trans ht)
    rw [storesOutside_iff] at hiff
    exact ⟨hiff, hreason⟩

/-- Settles O37: a halt writes its record and the phase, and the state it is raised in differs from `s` only in the latches,
the phase and the count. -/
theorem haltsArePrecise : Obligations.HaltsArePrecise := by
  intro s t hp h hhalt
  rcases step_halted_cases hp h hhalt with rfl | ⟨i, rfl⟩ | ⟨i, a, o, p, rfl⟩
  · simp [RegsKept, BytesKept]
  · simp [RegsKept, BytesKept, loopCount_countVisit]
  · simp [RegsKept, BytesKept, loopCount_countVisit]

end Sys2Proof.Machine
end

section
/-! SUPPORT. The bits a format uses, and the word of an instruction (30_encoding.md R105, R108, R116). -/

namespace Sys2Proof

/-- The bits of the right field a format uses: all of an immediate, a register index without w[1:0], or none (R105, R108). -/
def Format.usedRight : Format → BitVec 6
  | .I | .B => BitVec.allOnes 6
  | .R => BitVec.allOnes 4 ++ 0#2
  | .U => 0

/-- Every format uses the category, the type and the left register whole; formats differ in the right field alone. -/
theorem usedBits_eq_append_usedRight (f : Format) :
    f.usedBits = BitVec.allOnes 3 ++ BitVec.allOnes 3 ++ BitVec.allOnes 4 ++ f.usedRight := by
  cases f <;> decide

theorem packWord_and_usedBits (f : Format) (c t : BitVec 3) (rl : RegIdx) (rf : BitVec 6) :
    packWord c t rl rf &&& f.usedBits = packWord c t rl (rf &&& f.usedRight) := by
  rw [usedBits_eq_append_usedRight, packWord, BitVec.and_append, BitVec.and_append, BitVec.and_append,
    BitVec.and_allOnes, BitVec.and_allOnes, BitVec.and_allOnes, packWord]

/-- A word's right register index followed by zeros is its right field as format R uses it (R105). -/
theorem fieldRs_append_zero (w : Word) :
    (BitVec.ofFin (fieldRs w) : BitVec 4) ++ 0#2 = fieldRf w &&& Format.R.usedRight := by
  have hsplit : fieldRf w = (BitVec.ofFin (fieldRs w) : BitVec 4) ++ w.extractLsb' 0 2 :=
    (BitVec.extractLsb'_append_extractLsb'_eq_extractLsb' (show 2 = 0 + 2 from rfl)).symm
  rw [hsplit, Format.usedRight, BitVec.and_append, BitVec.and_allOnes, BitVec.and_zero]

/-- A record's operand, read from a word, packs to the word's right field without the bits the record's format ignores. -/
theorem field_withFields (d : Decoded) (w : Word) :
    (d.right.withFields (fieldRf w) (fieldRs w)).field = fieldRf w &&& d.format.usedRight := by
  obtain ⟨c, t, rl, right⟩ := d
  cases right with
  | imm _ =>
    have hwhole : (if c = 7 then Format.B else Format.I).usedRight = BitVec.allOnes 6 := by split <;> rfl
    exact ((congrArg (fieldRf w &&& ·) hwhole).trans BitVec.and_allOnes).symm
  | reg _ => exact fieldRs_append_zero w
  | memAtReg _ => exact fieldRs_append_zero w
  | absent => exact BitVec.and_zero.symm

theorem encode_withFields (rl : RegIdx) (rf : BitVec 6) (rs : RegIdx) (i : Instr) :
    encode (i.withFields rl rf rs) =
      packWord (recordOf i).cat (recordOf i).typ rl ((recordOf i).right.withFields rf rs).field := by
  rw [encode, recordOf_withFields, Decoded.pack]

end Sys2Proof
end

section
/-! SUPPORT. The statements of 30_encoding.md on a legal word's encoding, and the words of 95_test_vectors.md. -/

namespace Sys2Proof

/-- Settles O2: the instruction is its row's with the word's own operands, so encoding it packs the word's fields again, the
right one without its ignored bits. -/
theorem encodeGivesBackEveryLegalWordUpToIgnoredBits : Obligations.EncodeGivesBackEveryLegalWordUpToIgnoredBits := by
  intro w i h
  obtain ⟨hc, ht, hi⟩ := (decode_eq_ok_iff_fields w i).1 h
  calc encode i = encode (i.withFields (fieldRl w) (fieldRf w) (fieldRs w)) := by rw [hi]
    _ = packWord (fieldCat w) (fieldTyp w) (fieldRl w) (fieldRf w &&& i.format.usedRight) := by
      rw [encode_withFields, field_withFields, hc, ht, Instr.format]
    _ = w &&& i.format.usedBits := by rw [← packWord_and_usedBits, packWord_fields]

/-- Settles O10: the decoder is run on each listed word. -/
theorem listedWordsDecodeAsListed : Obligations.ListedWordsDecodeAsListed := by
  unfold Obligations.ListedWordsDecodeAsListed
  decide

end Sys2Proof
end
